-- ==== Sys2Proof/Word.lean ====
section
/-! DEFINITION. Word types of the chip8-tools core (spec 00_scope.md R6, R8: every value is unsigned). -/

namespace Sys2Proof

/-- An 8-bit value: a V register, a timer, a byte of memory, a byte immediate (R6). -/
abbrev Byte := BitVec 8

/-- A 16-bit value: I, PC, a stack entry, the keyboard mask, an instruction word (R6). -/
abbrev Word := BitVec 16

/-- The 12-bit address field `nnn` of an instruction word (R71). -/
abbrev Addr12 := BitVec 12

/-- A 4-bit field of an instruction word that is not a register number (R71). -/
abbrev Nibble := BitVec 4

/-- A register index 0..15, naming V0..VF (R21, R75). -/
abbrev Reg := Fin 16

end Sys2Proof
end

