-- ==== Sys2Proof/Syntax.lean ====
section
/-! DEFINITION. The instructions: one constructor per row of spec/opcode_table.json, in its order
(30_encoding.md R83). Every field of a row's format is kept, the ignored ones too (R75), so that a word
and its instruction determine each other (log 10). -/

namespace Sys2Proof

inductive Instr where
  /-- `00E0` (R191). -/
  | cls
  /-- `00EE` (R110). -/
  | ret
  /-- `0NNN`, every other word of family 0 (R77, R111). -/
  | sys (nnn : Addr12)
  /-- `1NNN` (R112). -/
  | jp (nnn : Addr12)
  /-- `2NNN` (R113). -/
  | call (nnn : Addr12)
  /-- `3XNN` (R114). -/
  | seByte (x : Reg) (nn : Byte)
  /-- `4XNN` (R115). -/
  | sneByte (x : Reg) (nn : Byte)
  /-- `5XYN`, n ignored (R81, R116). -/
  | sne5Reg (x y : Reg) (n : Nibble)
  /-- `6XNN` (R141). -/
  | ldByte (x : Reg) (nn : Byte)
  /-- `7XNN` (R142). -/
  | addByte (x : Reg) (nn : Byte)
  /-- `8XY0` (R144). -/
  | ldReg (x y : Reg)
  /-- `8XY1` (R145). -/
  | orReg (x y : Reg)
  /-- `8XY2` (R146). -/
  | andReg (x y : Reg)
  /-- `8XY3` (R147). -/
  | xorReg (x y : Reg)
  /-- `8XY4` (R148). -/
  | addReg (x y : Reg)
  /-- `8XY5` (R149). -/
  | sub (x y : Reg)
  /-- `8XY6`, y ignored (R150). -/
  | shr (x y : Reg)
  /-- `8XY7` (R151). -/
  | subn (x y : Reg)
  /-- `8XYE`, y ignored (R152). -/
  | shl (x y : Reg)
  /-- `8XYN` with n = 8..D or F (R78, R153). -/
  | nop8 (x y : Reg) (n : Nibble)
  /-- `9XYN`, n ignored (R81, R117). -/
  | sneReg (x y : Reg) (n : Nibble)
  /-- `ANNN` (R170). -/
  | ldI (nnn : Addr12)
  /-- `BNNN` (R118). -/
  | jpV0 (nnn : Addr12)
  /-- `CXNN` (R154). -/
  | rnd (x : Reg) (nn : Byte)
  /-- `DXYN` (R192). -/
  | drw (x y : Reg) (n : Nibble)
  /-- `EX9E` (R210). -/
  | skp (x : Reg)
  /-- `EXA1` (R211). -/
  | sknp (x : Reg)
  /-- `EXNN` with any other nn (R79, R212). -/
  | nopE (x : Reg) (nn : Byte)
  /-- `FX07` (R214). -/
  | ldVxDt (x : Reg)
  /-- `FX0A` (R215). -/
  | ldVxK (x : Reg)
  /-- `FX15` (R216). -/
  | ldDtVx (x : Reg)
  /-- `FX18` (R217). -/
  | ldStVx (x : Reg)
  /-- `FX1E` (R171). -/
  | addI (x : Reg)
  /-- `FX29` (R172). -/
  | ldF (x : Reg)
  /-- `FX33` (R173). -/
  | ldB (x : Reg)
  /-- `FX55` (R174). -/
  | ldMemVx (x : Reg)
  /-- `FX65` (R175). -/
  | ldVxMem (x : Reg)
  /-- `FXNN` with any other nn (R80, R218). -/
  | nopF (x : Reg) (nn : Byte)
  deriving DecidableEq, Repr

end Sys2Proof
end

