-- ==== Sys2Proof/WellFormed.lean ====
section
/-! DEFINITION. Which terms of `Instr` are instructions: the catch-all rows hold only the words that no
more specific row of their family matches (30_encoding.md R77 to R80, R83). Every other term is well formed. -/

namespace Sys2Proof

/-- The sub-opcodes n that family 8 leaves to NOP8 (R78). -/
def nop8SubOpcodes : List Nibble := [0x8, 0x9, 0xA, 0xB, 0xC, 0xD, 0xF]

/-- The sub-opcodes nn of family E that have an instruction of their own (R79). -/
def subOpcodesE : List Byte := [0x9E, 0xA1]

/-- The sub-opcodes nn of family F that have an instruction of their own (R80). -/
def subOpcodesF : List Byte := [0x07, 0x0A, 0x15, 0x18, 0x1E, 0x29, 0x33, 0x55, 0x65]

/-- The term stands for a word of its row. -/
def Instr.wellFormed : Instr → Bool
  | .sys nnn => nnn != 0x0E0 && nnn != 0x0EE
  | .nop8 _ _ n => nop8SubOpcodes.contains n
  | .nopE _ nn => !subOpcodesE.contains nn
  | .nopF _ nn => !subOpcodesF.contains nn
  | .cls => true
  | .ret => true
  | .jp _ => true
  | .call _ => true
  | .seByte _ _ => true
  | .sneByte _ _ => true
  | .sne5Reg _ _ _ => true
  | .ldByte _ _ => true
  | .addByte _ _ => true
  | .ldReg _ _ => true
  | .orReg _ _ => true
  | .andReg _ _ => true
  | .xorReg _ _ => true
  | .addReg _ _ => true
  | .sub _ _ => true
  | .shr _ _ => true
  | .subn _ _ => true
  | .shl _ _ => true
  | .sneReg _ _ _ => true
  | .ldI _ => true
  | .jpV0 _ => true
  | .rnd _ _ => true
  | .drw _ _ _ => true
  | .skp _ => true
  | .sknp _ => true
  | .ldVxDt _ => true
  | .ldVxK _ => true
  | .ldDtVx _ => true
  | .ldStVx _ => true
  | .addI _ => true
  | .ldF _ => true
  | .ldB _ => true
  | .ldMemVx _ => true
  | .ldVxMem _ => true

end Sys2Proof
end

