-- ==== Sys2Proof/Decode.lean ====
section
/-! DEFINITION. The Opcode Decoder (30_encoding.md) and, after it, the encoder and the opcode map.

`decode` is total on words (R72) and pure. Only a byte string that is too short to hold a word is
rejected, by name. -/

namespace Sys2Proof

/-! ### Fields (R71, R74) -/

/-- `w[15:12]`. -/
def familyOf (w : Word) : Nibble := w.extractLsb' 12 4

/-- `w[11:8]`, a register index. -/
def xOf (w : Word) : Reg := (w.extractLsb' 8 4).toFin

/-- `w[7:4]`, a register index. -/
def yOf (w : Word) : Reg := (w.extractLsb' 4 4).toFin

/-- `w[3:0]`. -/
def nOf (w : Word) : Nibble := w.extractLsb' 0 4

/-- `w[7:0]`. -/
def nnOf (w : Word) : Byte := w.extractLsb' 0 8

/-- `w[11:0]`. -/
def nnnOf (w : Word) : Addr12 := w.extractLsb' 0 12

/-! ### Selection (R76) -/

/-- Family 0: the match is on the whole word (R77). -/
def decodeFamily0 (w : Word) : Instr :=
  if w = 0x00E0 then .cls else if w = 0x00EE then .ret else .sys (nnnOf w)

/-- Family 8: the low nibble selects (R78). -/
def decodeFamily8 (w : Word) : Instr :=
  match (nOf w).toNat with
  | 0x0 => .ldReg (xOf w) (yOf w)
  | 0x1 => .orReg (xOf w) (yOf w)
  | 0x2 => .andReg (xOf w) (yOf w)
  | 0x3 => .xorReg (xOf w) (yOf w)
  | 0x4 => .addReg (xOf w) (yOf w)
  | 0x5 => .sub (xOf w) (yOf w)
  | 0x6 => .shr (xOf w) (yOf w)
  | 0x7 => .subn (xOf w) (yOf w)
  | 0xE => .shl (xOf w) (yOf w)
  | _ => .nop8 (xOf w) (yOf w) (nOf w)

/-- Family E: the low byte selects, for every x (R79). -/
def decodeFamilyE (w : Word) : Instr :=
  match (nnOf w).toNat with
  | 0x9E => .skp (xOf w)
  | 0xA1 => .sknp (xOf w)
  | _ => .nopE (xOf w) (nnOf w)

/-- Family F: the low byte selects, for every x (R80). -/
def decodeFamilyF (w : Word) : Instr :=
  match (nnOf w).toNat with
  | 0x07 => .ldVxDt (xOf w)
  | 0x0A => .ldVxK (xOf w)
  | 0x15 => .ldDtVx (xOf w)
  | 0x18 => .ldStVx (xOf w)
  | 0x1E => .addI (xOf w)
  | 0x29 => .ldF (xOf w)
  | 0x33 => .ldB (xOf w)
  | 0x55 => .ldMemVx (xOf w)
  | 0x65 => .ldVxMem (xOf w)
  | _ => .nopF (xOf w) (nnOf w)

/-- `Decode(w)` of R76, total over all 65536 words (R72). -/
def decode (w : Word) : Instr :=
  match (familyOf w).toNat with
  | 0x0 => decodeFamily0 w
  | 0x1 => .jp (nnnOf w)
  | 0x2 => .call (nnnOf w)
  | 0x3 => .seByte (xOf w) (nnOf w)
  | 0x4 => .sneByte (xOf w) (nnOf w)
  | 0x5 => .sne5Reg (xOf w) (yOf w) (nOf w)
  | 0x6 => .ldByte (xOf w) (nnOf w)
  | 0x7 => .addByte (xOf w) (nnOf w)
  | 0x8 => decodeFamily8 w
  | 0x9 => .sneReg (xOf w) (yOf w) (nOf w)
  | 0xA => .ldI (nnnOf w)
  | 0xB => .jpV0 (nnnOf w)
  | 0xC => .rnd (xOf w) (nnOf w)
  | 0xD => .drw (xOf w) (yOf w) (nOf w)
  | 0xE => decodeFamilyE w
  | _ => decodeFamilyF w

/-! ### Bytes (R55, R70) -/

/-- Why a byte string holds no instruction. -/
inductive DecodeError where
  /-- Fewer than the two bytes every instruction has (R70). Raised by `decodeBytes` only; safe: a fetch
  always supplies two bytes. -/
  | truncated
  deriving DecidableEq, Repr

/-- The instruction word of two bytes, the one at the lower address first: big-endian (R55). -/
def wordOfBytes (hi lo : Byte) : Word := hi ++ lo

/-- The byte of a word at the lower address (R55). -/
def hiByte (w : Word) : Byte := w.extractLsb' 8 8

/-- The byte of a word at the higher address (R55). -/
def loByte (w : Word) : Byte := w.extractLsb' 0 8

/-- The two bytes of a word in address order (R55). -/
def bytesOfWord (w : Word) : List Byte := [hiByte w, loByte w]

/-- The instruction at the head of a byte string, and the rest. -/
def decodeBytes : List Byte → Except DecodeError (Instr × List Byte)
  | hi :: lo :: rest => .ok (decode (wordOfBytes hi lo), rest)
  | [_] => .error .truncated
  | [] => .error .truncated

/-- The instruction the decoder reads from a word numbered as spec/opcode_table.json numbers it: one
16-bit word, bit 0 the least significant. Every row has 16 bits; a number that needs more is no word. -/
def decodeTableWord (nbits w : Nat) : Option Instr :=
  if nbits ≤ 16 ∧ w < 65536 then
    match decodeBytes (bytesOfWord (BitVec.ofNat 16 w)) with
    | .ok (i, _) => some i
    | .error _ => none
  else none

/-! ### The encoder (R74, R83) -/

/-- A register index as the four bits of its field. -/
def regBits (r : Reg) : Nibble := BitVec.ofFin r

/-- Format NNN: family, address. -/
def wordNNN (family : Nibble) (nnn : Addr12) : Word := family ++ nnn

/-- Formats XNN and XK: family, register, byte. -/
def wordXNN (family : Nibble) (x : Reg) (nn : Byte) : Word := family ++ regBits x ++ nn

/-- Format XYN: family, two registers, nibble. -/
def wordXYN (family : Nibble) (x y : Reg) (n : Nibble) : Word := family ++ regBits x ++ regBits y ++ n

/-- The word of a well-formed instruction. -/
def encode : Instr → Word
  | .cls => 0x00E0
  | .ret => 0x00EE
  | .sys nnn => wordNNN 0x0 nnn
  | .jp nnn => wordNNN 0x1 nnn
  | .call nnn => wordNNN 0x2 nnn
  | .seByte x nn => wordXNN 0x3 x nn
  | .sneByte x nn => wordXNN 0x4 x nn
  | .sne5Reg x y n => wordXYN 0x5 x y n
  | .ldByte x nn => wordXNN 0x6 x nn
  | .addByte x nn => wordXNN 0x7 x nn
  | .ldReg x y => wordXYN 0x8 x y 0x0
  | .orReg x y => wordXYN 0x8 x y 0x1
  | .andReg x y => wordXYN 0x8 x y 0x2
  | .xorReg x y => wordXYN 0x8 x y 0x3
  | .addReg x y => wordXYN 0x8 x y 0x4
  | .sub x y => wordXYN 0x8 x y 0x5
  | .shr x y => wordXYN 0x8 x y 0x6
  | .subn x y => wordXYN 0x8 x y 0x7
  | .shl x y => wordXYN 0x8 x y 0xE
  | .nop8 x y n => wordXYN 0x8 x y n
  | .sneReg x y n => wordXYN 0x9 x y n
  | .ldI nnn => wordNNN 0xA nnn
  | .jpV0 nnn => wordNNN 0xB nnn
  | .rnd x nn => wordXNN 0xC x nn
  | .drw x y n => wordXYN 0xD x y n
  | .skp x => wordXNN 0xE x 0x9E
  | .sknp x => wordXNN 0xE x 0xA1
  | .nopE x nn => wordXNN 0xE x nn
  | .ldVxDt x => wordXNN 0xF x 0x07
  | .ldVxK x => wordXNN 0xF x 0x0A
  | .ldDtVx x => wordXNN 0xF x 0x15
  | .ldStVx x => wordXNN 0xF x 0x18
  | .addI x => wordXNN 0xF x 0x1E
  | .ldF x => wordXNN 0xF x 0x29
  | .ldB x => wordXNN 0xF x 0x33
  | .ldMemVx x => wordXNN 0xF x 0x55
  | .ldVxMem x => wordXNN 0xF x 0x65
  | .nopF x nn => wordXNN 0xF x nn

/-! ### The opcode map (R83) -/

/-- The mask of a row whose word is fixed whole, whose family is fixed, whose family and low nibble are
fixed, whose family and low byte are fixed. -/
def maskWhole : Word := 0xFFFF
def maskFamily : Word := 0xF000
def maskNibble : Word := 0xF00F
def maskByte : Word := 0xF0FF

/-- The `mask` and `match` columns of R83's map, row by row in its order. -/
def opcodeRows : List (Word × Word) :=
  [(maskWhole, 0x00E0), (maskWhole, 0x00EE), (maskFamily, 0x0000), (maskFamily, 0x1000),
   (maskFamily, 0x2000), (maskFamily, 0x3000), (maskFamily, 0x4000), (maskFamily, 0x5000),
   (maskFamily, 0x6000), (maskFamily, 0x7000)] ++
  [(maskNibble, 0x8000), (maskNibble, 0x8001), (maskNibble, 0x8002), (maskNibble, 0x8003),
   (maskNibble, 0x8004), (maskNibble, 0x8005), (maskNibble, 0x8006), (maskNibble, 0x8007),
   (maskNibble, 0x800E), (maskFamily, 0x8000)] ++
  [(maskFamily, 0x9000), (maskFamily, 0xA000), (maskFamily, 0xB000), (maskFamily, 0xC000),
   (maskFamily, 0xD000), (maskByte, 0xE09E), (maskByte, 0xE0A1), (maskFamily, 0xE000)] ++
  [(maskByte, 0xF007), (maskByte, 0xF00A), (maskByte, 0xF015), (maskByte, 0xF018), (maskByte, 0xF01E),
   (maskByte, 0xF029), (maskByte, 0xF033), (maskByte, 0xF055), (maskByte, 0xF065), (maskFamily, 0xF000)]

/-- The row of R83's map an instruction belongs to: its `mask` and `match`. -/
def Instr.row : Instr → Word × Word
  | .cls => (maskWhole, 0x00E0)
  | .ret => (maskWhole, 0x00EE)
  | .sys _ => (maskFamily, 0x0000)
  | .jp _ => (maskFamily, 0x1000)
  | .call _ => (maskFamily, 0x2000)
  | .seByte _ _ => (maskFamily, 0x3000)
  | .sneByte _ _ => (maskFamily, 0x4000)
  | .sne5Reg _ _ _ => (maskFamily, 0x5000)
  | .ldByte _ _ => (maskFamily, 0x6000)
  | .addByte _ _ => (maskFamily, 0x7000)
  | .ldReg _ _ => (maskNibble, 0x8000)
  | .orReg _ _ => (maskNibble, 0x8001)
  | .andReg _ _ => (maskNibble, 0x8002)
  | .xorReg _ _ => (maskNibble, 0x8003)
  | .addReg _ _ => (maskNibble, 0x8004)
  | .sub _ _ => (maskNibble, 0x8005)
  | .shr _ _ => (maskNibble, 0x8006)
  | .subn _ _ => (maskNibble, 0x8007)
  | .shl _ _ => (maskNibble, 0x800E)
  | .nop8 _ _ _ => (maskFamily, 0x8000)
  | .sneReg _ _ _ => (maskFamily, 0x9000)
  | .ldI _ => (maskFamily, 0xA000)
  | .jpV0 _ => (maskFamily, 0xB000)
  | .rnd _ _ => (maskFamily, 0xC000)
  | .drw _ _ _ => (maskFamily, 0xD000)
  | .skp _ => (maskByte, 0xE09E)
  | .sknp _ => (maskByte, 0xE0A1)
  | .nopE _ _ => (maskFamily, 0xE000)
  | .ldVxDt _ => (maskByte, 0xF007)
  | .ldVxK _ => (maskByte, 0xF00A)
  | .ldDtVx _ => (maskByte, 0xF015)
  | .ldStVx _ => (maskByte, 0xF018)
  | .addI _ => (maskByte, 0xF01E)
  | .ldF _ => (maskByte, 0xF029)
  | .ldB _ => (maskByte, 0xF033)
  | .ldMemVx _ => (maskByte, 0xF055)
  | .ldVxMem _ => (maskByte, 0xF065)
  | .nopF _ _ => (maskFamily, 0xF000)

/-- A word satisfies a row's `mask` and `match` (R83). -/
def rowMatches (w : Word) (row : Word × Word) : Bool := w &&& row.1 == row.2

end Sys2Proof
end

