-- ==== Sys2Proof/Config.lean ====
section
/-! DEFINITION. The implementation parameters of spec 00_scope.md R6 and the host's free inputs.

The sizes are the stated values of R6. The `opaque` constants have no body: they stand for what the
host chooses and the spec leaves open (D21, D22), and nothing in Lean can evaluate them. -/

namespace Sys2Proof.Config

/-- `MEM_SIZE`: memory has the addresses 0..4095 (R6, R50). -/
abbrev memSize : Nat := 4096

/-- `PROG_BASE`: where the program image is placed and where PC starts (R6, R270). -/
abbrev progBase : Nat := 0x200

/-- `PROG_MAX`: the longest program image (R6, R271). -/
abbrev progMax : Nat := 3584

/-- `GLYPH_BYTES`: the length of the glyph table, placed at address 0 (R6, R274). -/
abbrev glyphBytes : Nat := 80

/-- `GLYPH_STRIDE`: the bytes of one glyph (R6, R172). -/
abbrev glyphStride : Nat := 5

/-- `STACK_DEPTH` (R6, C1). -/
abbrev stackDepth : Nat := 16

/-- `DISPLAY_W` (R6, R190). -/
abbrev displayW : Nat := 64

/-- `DISPLAY_H` (R6, R190). -/
abbrev displayH : Nat := 32

/-- Whether an event that is no reset is a timer tick (true) or a tick (false), by event number:
`TIMER_SCHEDULE`, open (D22, R224). DESIGN CHOICE, log 4. -/
opaque freeIsTimerTick : Nat → Bool

/-- Whether the host's next event is a reset, and with which image, by event number: the driver decides when to reset
(U17, R247, R253). DESIGN CHOICE, log 8. -/
opaque freeReset : Nat → Option (Option (List Byte))

/-- The keyboard bitmask the host samples for a tick, by event number: a free input (R100, R102).
DESIGN CHOICE, log 4. -/
opaque freeKeys : Nat → Word

/-- The random byte the host supplies with a tick, by event number: a free input (R34, R154, D21).
DESIGN CHOICE, log 3. -/
opaque freeRandom : Nat → Byte

end Sys2Proof.Config
end

