-- ==== Sys2Proof/Machine/State.lean ====
section
/-! DEFINITION. Architectural state (10_state.md R20 to R32), the faults (60_exceptions.md R240), the host's
events (60_exceptions.md R253) and the state after reset (70_reset_and_hazards.md R270). -/

namespace Sys2Proof.Machine

/-- Memory as the cells that differ from its reset contents, by strictly rising address: what an unlisted
address reads as is `Memory.unlisted`, and the canonical form is `Memory.wf` (Machine/Ops.lean). -/
abbrev Memory := List Host.Cell

/-- The fault kinds of R240, with the information each records. Kinds 2 to 5 are recorded in `State.halt`
by the step that raises them, which is a next state (R246, log 5); kind 1 is the outcome `fault`. -/
inductive Fault where
  /-- Code 1, `LoadError(len)`: raised by machine creation (`State.create`) when the image is missing (`none`)
  or longer than 3584 bytes; no machine exists after it (R245, R271). Safe. -/
  | loadError (len : Option Nat)
  /-- Code 2, `FetchAddressFault(addr, pc)`: raised by the fetch (`execute`) when PC ≥ 4095 (R241). Safe. -/
  | fetchAddress (addr : Nat) (pc : Word)
  /-- Code 3, `DataAddressFault(addr, pc, word)`: raised by DRW, LD_B, LD_MEM_VX and LD_VX_MEM when their
  address range leaves memory (R242). Safe. -/
  | dataAddress (addr : Nat) (pc word : Word)
  /-- Code 4, `StackOverflow(pc, word)`: raised by CALL with SP = 16 (R243). Safe. -/
  | stackOverflow (pc word : Word)
  /-- Code 5, `StackUnderflow(pc, word)`: raised by RET with SP = 0 (R244). Safe. -/
  | stackUnderflow (pc word : Word)
  deriving DecidableEq, Repr

/-- Why an instruction has no meaning. -/
inductive Refusal where
  /-- An instruction without a meaning, by its mnemonic. Raised by no arm: every instruction is modelled. Safe. -/
  | notModelled (mnemonic : String)
  deriving DecidableEq, Repr

/-- What the host does to the core (R253). -/
inductive HostEvent where
  /-- `Tick(keys, rnd)`: a keyboard sample and a random byte, then one instruction or one key-wait check (R100). -/
  | tick (keys : Word) (rnd : Byte)
  /-- `TimerTick`: one 60 Hz decrement (R223). -/
  | timerTick
  /-- `Reset(image)`: a new machine; `none` is a missing image (R270, R271). -/
  | reset (image : Option (List Byte))
  deriving DecidableEq, Repr

/-- The machine. -/
structure State where
  /-- Memory (R20). -/
  mem : Memory
  /-- V0..VF (R21); V15 is VF (R22). -/
  v : Vector Byte 16
  /-- I, the address register (R23). -/
  i : Word
  /-- PC (R24). -/
  pc : Word
  /-- The return addresses (R25). -/
  stack : Vector Word 16
  /-- SP, the next free slot, 0..16 (R26). -/
  sp : Fin 17
  /-- DT, the delay timer (R27). -/
  dt : Byte
  /-- ST, the sound timer (R28). -/
  st : Byte
  /-- The 32 rows of 64 single-bit cells, row-major: cell (c, r) is bit c of row r, element r * 64 + c of the
  sequence (R29). -/
  display : Vector (BitVec 64) 32
  /-- The keyboard bitmask of the last sample (R30). -/
  keyboard : Word
  /-- The key-wait sub-machine: `none` is Running, `some r` is AwaitingKey(r) (R31, R220). -/
  awaitingKey : Option Reg
  /-- The fault that stopped the machine (R32). -/
  halt : Option Fault
  /-- MODEL'S OWN: the random byte of the current tick, a free input (R34, log 3). -/
  rnd : Byte
  /-- MODEL'S OWN: the host events still to come, the next one first (R100, log 4). -/
  inputs : List HostEvent
  /-- MODEL'S OWN: numbers the events that come when `inputs` is empty (log 4). -/
  eventNo : Nat
  deriving DecidableEq, Repr

/-- The machine right after a reset with an empty image (R270, R271): PC = 0x200, memory as
`Memory.unlisted` gives it, everything else 0 or None (R20 to R32, D17, log 2). -/
def State.reset : State where
  mem := []
  v := Vector.replicate 16 0
  i := 0
  pc := 0x200
  stack := Vector.replicate 16 0
  sp := 0
  dt := 0
  st := 0
  display := Vector.replicate 32 0
  keyboard := 0
  awaitingKey := none
  halt := none
  rnd := 0
  inputs := []
  eventNo := 0

end Sys2Proof.Machine
end

