-- ==== Sys2Proof/Machine/Ops.lean ====
section
/-! DEFINITION. The named operations over memory and registers (00_scope.md R9, 20_memory.md), the advance of
PC (40_sequencer.md R105, R107) and fault entry (60_exceptions.md R246). -/

namespace Sys2Proof.Machine

/-! ### Memory (20_memory.md) -/

/-- What an address reads as when memory does not list it: the reset contents, the glyph table at 0..79 and
0 elsewhere (R20, R59). An address from 4096 up is not memory; nothing reads one (R51, R53, log 9). -/
def Memory.unlisted (a : Nat) : Byte :=
  if h : a < Config.glyphBytes then defaultGlyphs[a] else 0

/-- The byte at an address (R51). -/
def Memory.read : Memory → Nat → Byte
  | [], a => Memory.unlisted a
  | (b, u) :: m, a => if a = b then u else Memory.read m a

/-- Memory with one byte changed (R52), the canonical form kept. -/
def Memory.write : Memory → Nat → Byte → Memory
  | [], a, u => if u = Memory.unlisted a then [] else [(a, u)]
  | (b, w) :: m, a, u =>
    if a < b then (if u = Memory.unlisted a then (b, w) :: m else (a, u) :: (b, w) :: m)
    else if a = b then (if u = Memory.unlisted a then m else (a, u) :: m)
    else (b, w) :: Memory.write m a u

/-- Bytes written from an address up, in order. -/
def Memory.writeList : Memory → Nat → List Byte → Memory
  | m, _, [] => m
  | m, a, u :: us => Memory.writeList (m.write a u) (a + 1) us

/-- The canonical form: addresses below 4096 and strictly rising, and no entry equal to what its address
reads as unlisted. -/
def Memory.wf : Memory → Bool
  | [] => true
  | (a, u) :: m =>
    decide (a < Config.memSize) && u != Memory.unlisted a && m.all (fun c => decide (a < c.1)) && Memory.wf m

/-- `MemRead(a, 1)` (R51). -/
def State.byte (s : State) (a : Nat) : Byte := s.mem.read a

/-- `MemRead` of the n addresses from a up, in order. -/
def State.bytes (s : State) (a n : Nat) : List Byte := (List.range n).map fun k => s.byte (a + k)

/-- `MemWrite(a, 1, u)` of successive bytes from a up (R52). -/
def State.storeBytes (s : State) (a : Nat) (us : List Byte) : State :=
  { s with mem := s.mem.writeList a us }

/-- The bounds check of R53 on the n addresses from a up: the smallest one that is not below 4096, if any.
Addresses are exact naturals (R54). -/
def firstBadAddress (a n : Nat) : Option Nat :=
  if n = 0 then none else if a + n - 1 < Config.memSize then none else some (max a Config.memSize)

/-- The instruction word at PC: two bytes, big-endian (R55, R104). -/
def State.fetchWord (s : State) : Word := wordOfBytes (s.byte s.pc.toNat) (s.byte (s.pc.toNat + 1))

/-! ### Registers (10_state.md R21, R22) -/

/-- VF is V15. -/
def vf : Reg := 15

/-- `V[r]`. -/
def State.reg (s : State) (r : Reg) : Byte := s.v[r]

/-- `V[r] <- u`. -/
def State.setReg (s : State) (r : Reg) (u : Byte) : State := { s with v := s.v.set r u }

/-- `V[x] <- result`, then `VF <- flag`: the flag is written last and wins when x = 15 (R143). -/
def State.setResultAndFlag (s : State) (x : Reg) (result flag : Byte) : State :=
  (s.setReg x result).setReg vf flag

/-- V0..Vx in order (R174). -/
def State.regsUpTo (s : State) (x : Reg) : List Byte :=
  ((List.finRange 16).filter fun r => decide (r ≤ x)).map s.reg

/-- `V[k] <- MemRead(a + k, 1)` for k in 0..x; the registers above x keep their values (R175). -/
def State.loadRegsUpTo (s : State) (x : Reg) (a : Nat) : State :=
  { s with v := Vector.ofFn fun r => if r ≤ x then s.byte (a + r.val) else s.reg r }

/-! ### Stack (10_state.md R25, R26) -/

/-- `stack[k]`. -/
def State.stackEntry (s : State) (k : Fin 16) : Word := s.stack[k]

/-- `stack[SP] <- t; SP <- SP + 1`, or none when SP = 16 (R113). -/
def State.push (s : State) (t : Word) : Option State :=
  if h : s.sp.val < 16 then
    some { s with stack := s.stack.set s.sp.val t, sp := ⟨s.sp.val + 1, Nat.succ_lt_succ h⟩ }
  else none

/-- `t <- stack[SP - 1]; SP <- SP - 1`, or none when SP = 0; the entry is not cleared (R110). -/
def State.pop (s : State) : Option (Word × State) :=
  match s.sp with
  | ⟨0, _⟩ => none
  | ⟨k + 1, h⟩ =>
    some (s.stackEntry ⟨k, Nat.lt_of_succ_lt_succ h⟩, { s with sp := ⟨k, Nat.lt_of_succ_lt h⟩ })

/-! ### PC (40_sequencer.md R104, R105, R107) -/

/-- `npc`: the address after the instruction (R104). -/
def State.npc (s : State) : Word := s.pc + 2

/-- `PC <- target`. -/
def State.jump (s : State) (target : Word) : State := { s with pc := target }

/-- `PC <- npc`, the default advance (R105). -/
def State.advance (s : State) : State := s.jump s.npc

/-- A skip: `PC <- npc + 2` when it is taken, `PC <- npc` when not (R107). -/
def State.skipIf (s : State) (taken : Bool) : State := s.jump (if taken then s.npc + 2 else s.npc)

/-! ### Display (43_sprite_display.md R190) -/

/-- `display[c, r]` of a display: bit c of row r. -/
def cellOf (d : Vector (BitVec 64) 32) (c : Fin 64) (r : Fin 32) : Bool := d[r].getLsbD c.val

/-- A display with cell (c, r) turned over. -/
def flipCell (d : Vector (BitVec 64) 32) (c : Fin 64) (r : Fin 32) : Vector (BitVec 64) 32 :=
  d.set r (d[r] ^^^ BitVec.twoPow 64 c.val)

/-- The display with all cells 0 (R191). -/
def clearDisplay : Vector (BitVec 64) 32 := Vector.replicate 32 0

/-- `display[c, r]`. -/
def State.cell (s : State) (c : Fin 64) (r : Fin 32) : Bool := cellOf s.display c r

/-! ### Sound (44_timers_keys.md R225) -/

/-- The core's sound output, `ST > 0`, read by the host. -/
def State.soundOn (s : State) : Bool := decide (s.st.toNat > 0)

/-! ### Fault entry (60_exceptions.md R246) -/

/-- `raise F(info)`: nothing is written but `halt`; PC stays at the faulting instruction. There is no handler
and no return (R247). -/
def raise (f : Fault) (s : State) : Host.Outcome State Fault Refusal := .next { s with halt := some f }

/-- The code of a fault kind (R240). -/
def Fault.code : Fault → Nat
  | .loadError _ => 1
  | .fetchAddress _ _ => 2
  | .dataAddress _ _ _ => 3
  | .stackOverflow _ _ => 4
  | .stackUnderflow _ _ => 5

end Sys2Proof.Machine
end

