-- ==== Sys2Proof/Machine/Boot.lean ====
section
/-! DEFINITION. Machine creation (70_reset_and_hazards.md R270, R271). -/

namespace Sys2Proof.Machine

/-- Memory after creation: zero, the glyph table at 0, the image at 0x200 (R270). -/
def bootMemory (glyphs : Vector Byte Config.glyphBytes) (image : List Byte) : Memory :=
  (Memory.writeList [] 0 glyphs.toList).writeList Config.progBase image

/-- `Reset(image)`, for any value of the parameter GLYPHS: a missing image or one longer than 3584 bytes is a
load error and there is no machine; an empty image is accepted (R270, R271, R245, D25). -/
def State.create (glyphs : Vector Byte Config.glyphBytes) : Option (List Byte) → Except Fault State
  | none => .error (.loadError none)
  | some image =>
    if image.length ≤ Config.progMax then .ok { State.reset with mem := bootMemory glyphs image }
    else .error (.loadError (some image.length))

end Sys2Proof.Machine
end

