-- ==== Sys2Proof/Machine/Flags.lean ====
section
/-! DEFINITION. The values written to VF as a flag, always 0 or 1 (41_alu.md R140, 10_state.md R22). -/

namespace Sys2Proof.Machine

/-- A truth value as the flag byte. -/
def flagByte (b : Bool) : Byte := if b then 1 else 0

/-- Carry out of bit 7: `a + b > 255` (R140, R148). -/
def carryFlag (a b : Byte) : Byte := flagByte (decide (a.toNat + b.toNat > 255))

/-- No borrow: `minuend ≥ subtrahend` (R140, R149, R151). -/
def noBorrowFlag (minuend subtrahend : Byte) : Byte := flagByte (decide (minuend.toNat ≥ subtrahend.toNat))

/-- The bit a right shift moves out, bit 0 (R150). -/
def shiftedOutRight (a : Byte) : Byte := flagByte (a.getLsbD 0)

/-- The bit a left shift moves out, bit 7 (R152). -/
def shiftedOutLeft (a : Byte) : Byte := flagByte (a.getLsbD 7)

end Sys2Proof.Machine
end

