-- ==== Sys2Proof/Machine/Operands.lean ====
section
/-! DEFINITION. Operand forms: the address ranges of the I-relative instructions (20_memory.md R53,
42_index_memory.md R176), jump targets, the key tests, the decimal digits and the glyph address. -/

namespace Sys2Proof.Machine

/-- An address field as a PC or I value: zero-extended (R75). -/
def addrWord (nnn : Addr12) : Word := nnn.setWidth 16

/-- The target of BNNN: `nnn + V[0]` (R118). -/
def indexedTarget (nnn : Addr12) (v0 : Byte) : Word := nnn.setWidth 16 + v0.setWidth 16

/-- The effective address `I + k`, an exact natural number (R54). -/
def State.ea (s : State) (k : Nat) : Nat := s.i.toNat + k

/-- The I-relative addresses of an instruction: the first and how many (R53). -/
structure Range where
  first : Nat
  count : Nat
  deriving DecidableEq, Repr

/-- DXYN reads `I .. I+n-1` (R53, R192). -/
def State.spriteRange (s : State) (n : Nibble) : Range := ⟨s.ea 0, n.toNat⟩

/-- FX33 writes `I+1 .. I+3` (R53, R173). -/
def State.digitRange (s : State) : Range := ⟨s.ea 1, 3⟩

/-- FX55 and FX65 move `I .. I+x` (R53, R174, R175). -/
def State.blockRange (s : State) (x : Reg) : Range := ⟨s.ea 0, x.val + 1⟩

/-- The bounds check on a range (R53). -/
def Range.fault (rg : Range) : Option Nat := firstBadAddress rg.first rg.count

/-- An instruction with an I-relative range: the whole range is checked before anything is read or written;
out of memory it raises DataAddressFault with the lowest bad address, PC and its own word (R53, R242, R246,
log 11), otherwise it ends in t. -/
def checkedAccess (rg : Range) (i : Instr) (s t : State) : Host.Outcome State Fault Refusal :=
  match rg.fault with
  | some a => raise (.dataAddress a s.pc (encode i)) s
  | none => .next t

/-- `I + V[x]` in 16 bits (R171). -/
def indexSum (i : Word) (u : Byte) : Word := i + u.setWidth 16

/-- `V[x] * 5`, of the whole byte (R172). -/
def glyphAddress (u : Byte) : Word := BitVec.ofNat 16 (u.toNat * Config.glyphStride)

/-- Hundreds, tens and ones of a byte (R173). -/
def decimalDigits (u : Byte) : List Byte :=
  [BitVec.ofNat 8 (u.toNat / 100), BitVec.ofNat 8 (u.toNat / 10 % 10), BitVec.ofNat 8 (u.toNat % 10)]

/-- `keyHeld(v)`: a value from 16 up names no key (R213). -/
def State.keyHeld (s : State) (u : Byte) : Bool := decide (u.toNat < 16) && s.keyboard.getLsbD u.toNat

/-- The lowest set bit of a mask; none exactly when the mask is 0 (R9, R221). -/
def lowestSetBit (m : Word) : Option Reg := (List.finRange 16).find? fun k => m.getLsbD k.val

/-- A register index as the byte written by a key wait (R221). -/
def keyByte (k : Reg) : Byte := BitVec.ofNat 8 k.val

end Sys2Proof.Machine
end

