-- ==== Sys2Proof/Machine/Alu.lean ====
section
/-! DEFINITION. The ALU and register-file instructions (41_alu.md). Operands are read before any write; a
flag is written after the result (R143, D3, D4). -/

namespace Sys2Proof.Machine

/-- `6XNN` LD (R141). -/
def execLdByte (x : Reg) (nn : Byte) (s : State) : Host.Outcome State Fault Refusal :=
  .next (s.setReg x nn).advance

/-- `7XNN` ADD (R142): no flag. -/
def execAddByte (x : Reg) (nn : Byte) (s : State) : Host.Outcome State Fault Refusal :=
  .next (s.setReg x (s.reg x + nn)).advance

/-- `8XY0` LD (R144). -/
def execLdReg (x y : Reg) (s : State) : Host.Outcome State Fault Refusal :=
  .next (s.setReg x (s.reg y)).advance

/-- `8XY1` OR (R145): VF is not a flag here (D5). -/
def execOrReg (x y : Reg) (s : State) : Host.Outcome State Fault Refusal :=
  .next (s.setReg x (s.reg x ||| s.reg y)).advance

/-- `8XY2` AND (R146): VF is not a flag here (D5). -/
def execAndReg (x y : Reg) (s : State) : Host.Outcome State Fault Refusal :=
  .next (s.setReg x (s.reg x &&& s.reg y)).advance

/-- `8XY3` XOR (R147): VF is not a flag here (D5). -/
def execXorReg (x y : Reg) (s : State) : Host.Outcome State Fault Refusal :=
  .next (s.setReg x (s.reg x ^^^ s.reg y)).advance

/-- `8XY4` ADD (R148): VF = carry. -/
def execAddReg (x y : Reg) (s : State) : Host.Outcome State Fault Refusal :=
  .next (s.setResultAndFlag x (s.reg x + s.reg y) (carryFlag (s.reg x) (s.reg y))).advance

/-- `8XY5` SUB (R149): VF = no borrow. -/
def execSub (x y : Reg) (s : State) : Host.Outcome State Fault Refusal :=
  .next (s.setResultAndFlag x (s.reg x - s.reg y) (noBorrowFlag (s.reg x) (s.reg y))).advance

/-- `8XY6` SHR (R150): V[x] is shifted, y is ignored (D2); VF = the old bit 0. -/
def execShr (x _y : Reg) (s : State) : Host.Outcome State Fault Refusal :=
  .next (s.setResultAndFlag x (s.reg x >>> 1) (shiftedOutRight (s.reg x))).advance

/-- `8XY7` SUBN (R151): `V[y] - V[x]`, VF = no borrow. -/
def execSubn (x y : Reg) (s : State) : Host.Outcome State Fault Refusal :=
  .next (s.setResultAndFlag x (s.reg y - s.reg x) (noBorrowFlag (s.reg y) (s.reg x))).advance

/-- `8XYE` SHL (R152): V[x] is shifted, y is ignored (D2); VF = the old bit 7. -/
def execShl (x _y : Reg) (s : State) : Host.Outcome State Fault Refusal :=
  .next (s.setResultAndFlag x (s.reg x <<< 1) (shiftedOutLeft (s.reg x))).advance

/-- `8XYN` NOP8 (R153). -/
def execNop8 (_x _y : Reg) (_n : Nibble) (s : State) : Host.Outcome State Fault Refusal := .next s.advance

/-- `CXNN` RND (R154): the tick's random byte, any value (D21, log 3), masked. -/
def execRnd (x : Reg) (nn : Byte) (s : State) : Host.Outcome State Fault Refusal :=
  .next (s.setReg x (s.rnd &&& nn)).advance

end Sys2Proof.Machine
end

