-- ==== Sys2Proof/Machine/Control.lean ====
section
/-! DEFINITION. The control-flow instructions (40_sequencer.md): RET, SYS, JP, CALL, the four skips on
registers and bytes, JP V0. -/

namespace Sys2Proof.Machine

/-- `00EE` RET (R110): underflow with SP = 0 (R244). -/
def execRet (s : State) : Host.Outcome State Fault Refusal :=
  match s.pop with
  | none => raise (.stackUnderflow s.pc (encode .ret)) s
  | some (t, s') => .next (s'.jump t)

/-- `0NNN` SYS (R111): a no-op. -/
def execSys (_nnn : Addr12) (s : State) : Host.Outcome State Fault Refusal := .next s.advance

/-- `1NNN` JP (R112). -/
def execJp (nnn : Addr12) (s : State) : Host.Outcome State Fault Refusal := .next (s.jump (addrWord nnn))

/-- `2NNN` CALL (R113): overflow with SP = 16 (R243). -/
def execCall (nnn : Addr12) (s : State) : Host.Outcome State Fault Refusal :=
  match s.push s.npc with
  | none => raise (.stackOverflow s.pc (encode (.call nnn))) s
  | some s' => .next (s'.jump (addrWord nnn))

/-- `3XNN` SE (R114). -/
def execSeByte (x : Reg) (nn : Byte) (s : State) : Host.Outcome State Fault Refusal :=
  .next (s.skipIf (s.reg x == nn))

/-- `4XNN` SNE (R115). -/
def execSneByte (x : Reg) (nn : Byte) (s : State) : Host.Outcome State Fault Refusal :=
  .next (s.skipIf (s.reg x != nn))

/-- `5XYN` SNE5 (R116): skips on inequality, whatever n (C2, D6). -/
def execSne5Reg (x y : Reg) (_n : Nibble) (s : State) : Host.Outcome State Fault Refusal :=
  .next (s.skipIf (s.reg x != s.reg y))

/-- `9XYN` SNE (R117): skips on inequality, whatever n (D6). -/
def execSneReg (x y : Reg) (_n : Nibble) (s : State) : Host.Outcome State Fault Refusal :=
  .next (s.skipIf (s.reg x != s.reg y))

/-- `BNNN` JP V0 (R118). -/
def execJpV0 (nnn : Addr12) (s : State) : Host.Outcome State Fault Refusal :=
  .next (s.jump (indexedTarget nnn (s.reg 0)))

end Sys2Proof.Machine
end

