-- ==== Sys2Proof/Machine/Display.lean ====
section
/-! DEFINITION. The display instructions and the sprite-draw unit (43_sprite_display.md). -/

namespace Sys2Proof.Machine

/-- The display and the collision bit while a sprite is drawn: the `hit` of R192. -/
structure Canvas where
  cells : Vector (BitVec 64) 32
  hit : Bool
  deriving DecidableEq, Repr

/-- One sprite bit on one cell: collision when both are 1, then XOR (R192, R194). -/
def drawBit (bit : Bool) (c : Fin 64) (r : Fin 32) (cv : Canvas) : Canvas :=
  ⟨if bit then flipCell cv.cells c r else cv.cells, cv.hit || (bit && cellOf cv.cells c r)⟩

/-- The sprite bit at column offset col: bit 7 is offset 0 (R195, D19). -/
def spriteBit (b : Byte) (col : Nat) : Bool := b.getLsbD (7 - col)

/-- The column under offset col, wrapped (R193). -/
def wrapColumn (cx : Byte) (col : Nat) : Fin 64 := Fin.ofNat 64 (cx.toNat + col)

/-- The row under offset row, wrapped (R193). -/
def wrapRow (cy : Byte) (row : Nat) : Fin 32 := Fin.ofNat 32 (cy.toNat + row)

/-- One sprite byte on one row, columns 0 to 7 in order (R192). -/
def drawRow (cx : Byte) (r : Fin 32) (b : Byte) (cv : Canvas) : Canvas :=
  (List.range 8).foldl (fun cv col => drawBit (spriteBit b col) (wrapColumn cx col) r cv) cv

/-- The sprite's bytes from row offset `row` on (R192). -/
def drawRows (cx cy : Byte) : Nat → List Byte → Canvas → Canvas
  | _, [], cv => cv
  | row, b :: bs, cv => drawRows cx cy (row + 1) bs (drawRow cx (wrapRow cy row) b cv)

/-- A sprite drawn with its top-left cell at (cx, cy), from no collision (R192). -/
def State.drawSprite (s : State) (cx cy : Byte) (sprite : List Byte) : Canvas :=
  drawRows cx cy 0 sprite ⟨s.display, false⟩

/-- `00E0` CLS (R191). -/
def execCls (s : State) : Host.Outcome State Fault Refusal :=
  .next { s with display := clearDisplay }.advance

/-- `DXYN` DRW (R192): the coordinates are read first, VF = collision is written last; n = 0 draws nothing and
clears VF (D20). -/
def execDrw (x y : Reg) (n : Nibble) (s : State) : Host.Outcome State Fault Refusal :=
  let cv := s.drawSprite (s.reg x) (s.reg y) (s.bytes (s.spriteRange n).first (s.spriteRange n).count)
  checkedAccess (s.spriteRange n) (.drw x y n) s
    (({ s with display := cv.cells } : State).setReg vf (flagByte cv.hit)).advance

end Sys2Proof.Machine
end

