-- ==== Sys2Proof/Machine/Index.lean ====
section
/-! DEFINITION. The index register and memory instructions (42_index_memory.md). No transfer changes I (D11). -/

namespace Sys2Proof.Machine

/-- `ANNN` LD I (R170). -/
def execLdI (nnn : Addr12) (s : State) : Host.Outcome State Fault Refusal :=
  .next { s with i := addrWord nnn }.advance

/-- `FX1E` ADD I (R171): modulo 2^16, VF not written (D12). -/
def execAddI (x : Reg) (s : State) : Host.Outcome State Fault Refusal :=
  .next { s with i := indexSum s.i (s.reg x) }.advance

/-- `FX29` LD F (R172). -/
def execLdF (x : Reg) (s : State) : Host.Outcome State Fault Refusal :=
  .next { s with i := glyphAddress (s.reg x) }.advance

/-- `FX33` LD B (R173): the digits go to I+1, I+2, I+3 (C3). -/
def execLdB (x : Reg) (s : State) : Host.Outcome State Fault Refusal :=
  checkedAccess s.digitRange (.ldB x) s (s.storeBytes s.digitRange.first (decimalDigits (s.reg x))).advance

/-- `FX55` LD [I], Vx (R174). -/
def execLdMemVx (x : Reg) (s : State) : Host.Outcome State Fault Refusal :=
  checkedAccess (s.blockRange x) (.ldMemVx x) s (s.storeBytes (s.blockRange x).first (s.regsUpTo x)).advance

/-- `FX65` LD Vx, [I] (R175). -/
def execLdVxMem (x : Reg) (s : State) : Host.Outcome State Fault Refusal :=
  checkedAccess (s.blockRange x) (.ldVxMem x) s (s.loadRegsUpTo x (s.blockRange x).first).advance

end Sys2Proof.Machine
end

