-- ==== Sys2Proof/Machine/Keys.lean ====
section
/-! DEFINITION. The keypad and timer instructions and the no-op spaces of families E and F (44_timers_keys.md
R210 to R218). -/

namespace Sys2Proof.Machine

/-- `EX9E` SKP (R210). -/
def execSkp (x : Reg) (s : State) : Host.Outcome State Fault Refusal :=
  .next (s.skipIf (s.keyHeld (s.reg x)))

/-- `EXA1` SKNP (R211). -/
def execSknp (x : Reg) (s : State) : Host.Outcome State Fault Refusal :=
  .next (s.skipIf (!s.keyHeld (s.reg x)))

/-- `EXNN` NOPE (R212). -/
def execNopE (_x : Reg) (_nn : Byte) (s : State) : Host.Outcome State Fault Refusal := .next s.advance

/-- `FX07` LD Vx, DT (R214). -/
def execLdVxDt (x : Reg) (s : State) : Host.Outcome State Fault Refusal := .next (s.setReg x s.dt).advance

/-- `FX0A` LD Vx, K (R215): enters AwaitingKey(x) and moves PC past itself (D9). -/
def execLdVxK (x : Reg) (s : State) : Host.Outcome State Fault Refusal :=
  .next { s with awaitingKey := some x }.advance

/-- `FX15` LD DT, Vx (R216). -/
def execLdDtVx (x : Reg) (s : State) : Host.Outcome State Fault Refusal := .next { s with dt := s.reg x }.advance

/-- `FX18` LD ST, Vx (R217). -/
def execLdStVx (x : Reg) (s : State) : Host.Outcome State Fault Refusal := .next { s with st := s.reg x }.advance

/-- `FXNN` NOPF (R218). -/
def execNopF (_x : Reg) (_nn : Byte) (s : State) : Host.Outcome State Fault Refusal := .next s.advance

end Sys2Proof.Machine
end

