-- ==== Sys2Proof/Machine/Tick.lean ====
section
/-! DEFINITION. The sequencer's tick (40_sequencer.md R100 to R104), the key-wait step and the timer tick
(44_timers_keys.md R221 to R223), and the host's events (60_exceptions.md R253). -/

namespace Sys2Proof.Machine

/-- The address a fetch at PC reports, if `{PC, PC + 1}` leaves memory (R53, R104, R241). -/
def State.fetchFault (s : State) : Option Nat := firstBadAddress s.pc.toNat 2

/-- `Execute`: fetch, decode, run one instruction (R104). The random byte is `s.rnd`. -/
def execute (s : State) : Host.Outcome State Fault Refusal :=
  match s.fetchFault with
  | some a => raise (.fetchAddress a s.pc) s
  | none => exec (decode s.fetchWord) s

/-- `KeyWaitStep(r)`: the lowest held key goes to V[r] and the wait ends; with no key held nothing changes
(R221, R222). -/
def State.keyWaitStep (s : State) (r : Reg) : State :=
  match lowestSetBit s.keyboard with
  | some k => { s.setReg r (keyByte k) with awaitingKey := none }
  | none => s

/-- The host's inputs of a tick reach the core: the keyboard sample (R102) and the random byte (R34). -/
def State.sample (s : State) (keys : Word) (rnd : Byte) : State := { s with keyboard := keys, rnd := rnd }

/-- `Tick(keys, rnd)` (R100): nothing when halted (R101), the key-wait step while AwaitingKey (R103), otherwise
one instruction. -/
def tick (keys : Word) (rnd : Byte) (s : State) : Host.Outcome State Fault Refusal :=
  match s.halt with
  | some _ => .next s
  | none =>
    match s.awaitingKey with
    | some r => .next ((s.sample keys rnd).keyWaitStep r)
    | none => execute (s.sample keys rnd)

/-- A timer's decrement, clamped at 0 (R27, R223). -/
def countDown (t : Byte) : Byte := if t = 0 then 0 else t - 1

/-- `TimerTick` (R223): nothing when halted, otherwise both timers count down, in either sub-machine state. -/
def State.timerTick (s : State) : State :=
  match s.halt with
  | some _ => s
  | none => { s with dt := countDown s.dt, st := countDown s.st }

/-- `Reset(image)` (R270): nothing survives from the old machine; the host's own schedule goes on. A load error
ends the run: there is no machine (R245, log 6). -/
def hostReset (image : Option (List Byte)) (s : State) : Host.Outcome State Fault Refusal :=
  match State.create defaultGlyphs image with
  | .ok t => .next { t with inputs := s.inputs, eventNo := s.eventNo }
  | .error f => .fault f

/-- What one host event does (R253). -/
def hostEvent : HostEvent → State → Host.Outcome State Fault Refusal
  | .tick keys rnd, s => tick keys rnd s
  | .timerTick, s => .next s.timerTick
  | .reset image, s => hostReset image s

/-- The event the host brings when no input is queued: a reset, a timer tick or a tick, with any image, any keys and
any random byte, as the opaque constants say for this event number (D21, D22, U17, log 3, log 4, log 8). -/
def freeEvent (n : Nat) : HostEvent :=
  match Config.freeReset n with
  | some image => .reset image
  | none => if Config.freeIsTimerTick n then .timerTick else .tick (Config.freeKeys n) (Config.freeRandom n)

/-- The host's next event. -/
def State.nextEvent (s : State) : HostEvent :=
  match s.inputs with
  | e :: _ => e
  | [] => freeEvent s.eventNo

/-- The state once the host's next event has been taken from its schedule. -/
def State.takeEvent (s : State) : State :=
  match s.inputs with
  | _ :: rest => { s with inputs := rest }
  | [] => { s with eventNo := s.eventNo + 1 }

/-- Where an instruction can be placed and fetched: PC, or the program base when PC cannot be fetched from. -/
def State.fetchablePc (s : State) : Word := if s.pc.toNat + 1 < Config.memSize then s.pc else 0x200

/-- The state with one word stored where the next instruction is fetched and a tick due that fetches it: not
halted, not waiting for a key, the tick first in the schedule, with the keyboard and random byte the state
already holds, so that the sample changes nothing (log 7). -/
def State.placeWord (s : State) (w : Word) : State :=
  { s.storeBytes s.fetchablePc.toNat (bytesOfWord w) with
    pc := s.fetchablePc, halt := none, awaitingKey := none, inputs := .tick s.keyboard s.rnd :: s.inputs }

end Sys2Proof.Machine
end

