-- ==== Sys2Proof/Machine/Step.lean ====
section
/-! DEFINITION. One step: one host event (40_sequencer.md R100, 60_exceptions.md R253). -/

namespace Sys2Proof.Machine

/-- The core advances only by host events (R100): the next one is taken and happens. -/
def step (s : State) : Host.Outcome State Fault Refusal := hostEvent s.nextEvent s.takeEvent

/-- s with the instruction of the low nbits bits of w placed where the next step fetches (log 7). -/
def State.withFetchWord (s : State) (nbits w : Nat) : State :=
  s.placeWord (BitVec.ofNat 16 (if nbits ≤ 16 then w % 2 ^ nbits else w))

end Sys2Proof.Machine
end

