-- ==== Sys2Proof/Safety.lean ====
section
/-! DEFINITION. The terms claims are stated in: what an instruction leaves unchanged, when an instruction faults,
what a recorded fault says, and the invariant of the machine. -/

namespace Sys2Proof.Machine

/-! ### Frames -/

/-- What an instruction may change beside PC; the memory part lists addresses. -/
structure Footprint where
  regs : List Reg := []
  mem : List Nat := []
  i : Bool := false
  stack : Bool := false
  dt : Bool := false
  st : Bool := false
  display : Bool := false
  awaitingKey : Bool := false
  halt : Bool := false
  deriving DecidableEq, Repr

/-- Everything outside the footprint is the same in t as in s; PC may differ. Memory is compared through the read
of one byte, at every address. The keyboard sample and the model's own fields never change. -/
structure Unchanged (w : Footprint) (s t : State) : Prop where
  regs : ∀ r, r ∉ w.regs → t.reg r = s.reg r
  mem : ∀ a, a ∉ w.mem → t.byte a = s.byte a
  i : w.i = false → t.i = s.i
  stack : w.stack = false → t.sp = s.sp ∧ ∀ k, t.stackEntry k = s.stackEntry k
  dt : w.dt = false → t.dt = s.dt
  st : w.st = false → t.st = s.st
  display : w.display = false → ∀ c r, t.cell c r = s.cell c r
  awaitingKey : w.awaitingKey = false → t.awaitingKey = s.awaitingKey
  halt : w.halt = false → t.halt = s.halt
  keyboard : t.keyboard = s.keyboard
  host : t.rnd = s.rnd ∧ t.inputs = s.inputs ∧ t.eventNo = s.eventNo

/-- The addresses of a range. -/
def Range.addresses (rg : Range) : List Nat := (List.range rg.count).map (rg.first + ·)

/-- What the spec says each instruction writes beside PC when it does not fault: the writers named in
10_state.md R20 to R31 and each instruction's own rule. That 8XY0 to 8XY3 leave VF is the spec's decision D5 (log 12),
that FX55 and FX65 leave I and FX1E leaves VF its decisions D11 and D12 (log 15). -/
def footprintOf (s : State) : Instr → Footprint
  | .cls => { display := true }
  | .ret => { stack := true }
  | .sys _ => {}
  | .jp _ => {}
  | .call _ => { stack := true }
  | .seByte _ _ => {}
  | .sneByte _ _ => {}
  | .sne5Reg _ _ _ => {}
  | .ldByte x _ => { regs := [x] }
  | .addByte x _ => { regs := [x] }
  | .ldReg x _ => { regs := [x] }
  | .orReg x _ => { regs := [x] }
  | .andReg x _ => { regs := [x] }
  | .xorReg x _ => { regs := [x] }
  | .addReg x _ => { regs := [x, vf] }
  | .sub x _ => { regs := [x, vf] }
  | .shr x _ => { regs := [x, vf] }
  | .subn x _ => { regs := [x, vf] }
  | .shl x _ => { regs := [x, vf] }
  | .nop8 _ _ _ => {}
  | .sneReg _ _ _ => {}
  | .ldI _ => { i := true }
  | .jpV0 _ => {}
  | .rnd x _ => { regs := [x] }
  | .drw _ _ _ => { regs := [vf], display := true }
  | .skp _ => {}
  | .sknp _ => {}
  | .nopE _ _ => {}
  | .ldVxDt x => { regs := [x] }
  | .ldVxK _ => { awaitingKey := true }
  | .ldDtVx _ => { dt := true }
  | .ldStVx _ => { st := true }
  | .addI _ => { i := true }
  | .ldF _ => { i := true }
  | .ldB _ => { mem := s.digitRange.addresses }
  | .ldMemVx x => { mem := (s.blockRange x).addresses }
  | .ldVxMem x => { regs := (List.finRange 16).filter fun r => decide (r ≤ x) }
  | .nopF _ _ => {}

/-! ### Faults -/

/-- The fault an instruction raises in a state, if any: R242 (with the lowest bad address, R53), R243, R244. No other
instruction raises one (R248, R249). The spec's decisions in it are D13, D15 and D24 (log 14), and D20 for DXYN with
n = 0 (log 17). -/
def faultOf (s : State) (i : Instr) : Option Fault :=
  match i with
  | .drw _ _ n =>
    if 0 < n.toNat ∧ 4096 ≤ s.i.toNat + n.toNat - 1 then
      some (.dataAddress (max s.i.toNat 4096) s.pc (encode i)) else none
  | .ldB _ =>
    if 4096 ≤ s.i.toNat + 3 then some (.dataAddress (max (s.i.toNat + 1) 4096) s.pc (encode i)) else none
  | .ldMemVx x =>
    if 4096 ≤ s.i.toNat + x.val then some (.dataAddress (max s.i.toNat 4096) s.pc (encode i)) else none
  | .ldVxMem x =>
    if 4096 ≤ s.i.toNat + x.val then some (.dataAddress (max s.i.toNat 4096) s.pc (encode i)) else none
  | .call _ => if s.sp.val = 16 then some (.stackOverflow s.pc (encode i)) else none
  | .ret => if s.sp.val = 0 then some (.stackUnderflow s.pc (encode i)) else none
  | .cls => none
  | .sys _ => none
  | .jp _ => none
  | .seByte _ _ => none
  | .sneByte _ _ => none
  | .sne5Reg _ _ _ => none
  | .ldByte _ _ => none
  | .addByte _ _ => none
  | .ldReg _ _ => none
  | .orReg _ _ => none
  | .andReg _ _ => none
  | .xorReg _ _ => none
  | .addReg _ _ => none
  | .sub _ _ => none
  | .shr _ _ => none
  | .subn _ _ => none
  | .shl _ _ => none
  | .nop8 _ _ _ => none
  | .sneReg _ _ _ => none
  | .ldI _ => none
  | .jpV0 _ => none
  | .rnd _ _ => none
  | .skp _ => none
  | .sknp _ => none
  | .nopE _ _ => none
  | .ldVxDt _ => none
  | .ldVxK _ => none
  | .ldDtVx _ => none
  | .ldStVx _ => none
  | .addI _ => none
  | .ldF _ => none
  | .nopF _ _ => none

/-- The fault a running machine's next instruction raises, the fetch check first (R241, R248). -/
def State.pendingFault (s : State) : Option Fault :=
  if 4095 ≤ s.pc.toNat then some (.fetchAddress (max s.pc.toNat 4096) s.pc)
  else faultOf s (decode s.fetchWord)

/-! ### The invariant -/

/-- What every step keeps: memory in canonical form; PC at most 0x10FE (R106); every stack entry at most 4096 (R106);
a halted machine still shows the fault it recorded, at its PC (R246); no fault during a key wait (R222). SP ≤ 16
(R26) is in its type. -/
structure State.Inv (s : State) : Prop where
  mem : s.mem.wf = true
  pc : s.pc.toNat ≤ 0x10FE
  stack : ∀ k, (s.stackEntry k).toNat ≤ 4096
  halt : ∀ f, s.halt = some f → s.pendingFault = some f
  wait : s.awaitingKey = none ∨ s.halt = none

/-- A safe run never halts (R285: a halted machine is a failure, not a normal end). -/
def State.running (s : State) : Prop := s.halt = none

/-! ### Sprites (43_sprite_display.md R192 to R195) -/

/-- The bit a sprite of n rows at (cx, cy) has on cell (c, r): offset (c - cx mod 64, r - cy mod 32) inside the
8 × n sprite, bit 7 the leftmost. -/
def State.spriteOn (s : State) (cx cy : Byte) (n : Nat) (c : Fin 64) (r : Fin 32) : Bool :=
  let dc := (c.val + 64 - cx.toNat % 64) % 64
  let dr := (r.val + 32 - cy.toNat % 32) % 32
  decide (dc < 8 ∧ dr < n) && (s.byte (s.i.toNat + dr)).getLsbD (7 - dc)

end Sys2Proof.Machine
end

