-- ==== Sys2Proof/Certificates/Slice0/Obligations.lean ====
section
/-! DEFINITION. The statements for the provers. Every statement about an instruction's effect has the next state as
its conclusion, so it also says that the instruction completes; `Unchanged` is its frame. Clauses that rest on one of
the spec's own decisions (D<n>) or on a choice of the model name the decision and the log entry. -/

open Sys2Proof Sys2Proof.Machine

/-! ### Encoding and decoding (30_encoding.md) -/

/-- Decode and encode agree: no bit of any instruction's encoding is dropped. -/
def Obligations.DecodeOfEncodeIsIdentity : Prop :=
  ∀ i : Instr, i.wellFormed = true → decode (encode i) = i

/-- Decoding is total: every word is a well-formed instruction, and that instruction's word is the word itself (R72,
R76). That a constructor keeps ignored fields is the model's choice (log 10). -/
def Obligations.EveryWordIsItsInstruction : Prop :=
  ∀ w : Word, (decode w).wellFormed = true ∧ encode (decode w) = w

/-- R71 and R73: each field is masked first and shifted second; the example of R73; the overlaps of R71. -/
def Obligations.FieldsAreMaskedThenShifted : Prop :=
  (∀ w : Word,
    (familyOf w).toNat = ((w &&& 0xF000) >>> 12).toNat ∧
    (xOf w).val = ((w &&& 0x0F00) >>> 8).toNat ∧
    (yOf w).val = ((w &&& 0x00F0) >>> 4).toNat ∧
    (nOf w).toNat = (w &&& 0x000F).toNat ∧
    (nnOf w).toNat = (w &&& 0x00FF).toNat ∧
    (nnnOf w).toNat = (w &&& 0x0FFF).toNat ∧
    (nnOf w).toNat = ((yOf w).val <<< 4 ||| (nOf w).toNat) ∧
    (nnnOf w).toNat = ((xOf w).val <<< 8 ||| (nnOf w).toNat)) ∧
  xOf 0x8AB4 = 0xA ∧ (0x8AB4 : Word) &&& (0x0F00 >>> 8) = 0x4

/-- R83: a word's row satisfies `w & mask = match`, and every other row that it satisfies too has fewer bits in its
mask. -/
def Obligations.MostSpecificRowWins : Prop :=
  ∀ w : Word, (decode w).row ∈ opcodeRows ∧ rowMatches w (decode w).row = true ∧
    ∀ row ∈ opcodeRows, rowMatches w row = true → row ≠ (decode w).row →
      (List.range 16).countP (row.1.getLsbD ·) < (List.range 16).countP ((decode w).row.1.getLsbD ·)

/-- Words written out from the opcode map, one or more of each family, decode to the instructions they stand for. The
spec's decisions are: the sub-opcodes of family 8 D1 (log 12); 0x5121 a skip although n = 1 D6, 0x01E0 no CLS D7, the
low byte selecting in families E and F D8 (log 13). -/
def Obligations.SampleWordsDecode : Prop :=
  decode 0x00E0 = .cls ∧ decode 0x00EE = .ret ∧ decode 0x01E0 = .sys 0x1E0 ∧ decode 0x1ABC = .jp 0xABC ∧
  decode 0x2300 = .call 0x300 ∧ decode 0x3310 = .seByte 3 0x10 ∧ decode 0x4310 = .sneByte 3 0x10 ∧
  decode 0x5121 = .sne5Reg 1 2 1 ∧ decode 0x6AFF = .ldByte 0xA 0xFF ∧ decode 0x7102 = .addByte 1 0x02 ∧
  decode 0x8AB4 = .addReg 0xA 0xB ∧ decode 0x8128 = .nop8 1 2 8 ∧ decode 0x9120 = .sneReg 1 2 0 ∧
  decode 0xAFFF = .ldI 0xFFF ∧ decode 0xB300 = .jpV0 0x300 ∧ decode 0xC30F = .rnd 3 0x0F ∧
  decode 0xD12F = .drw 1 2 0xF ∧ decode 0xE19E = .skp 1 ∧ decode 0xE19F = .nopE 1 0x9F ∧
  decode 0xF265 = .ldVxMem 2 ∧ decode 0xFFFF = .nopF 0xF 0xFF

/-! ### The tick (40_sequencer.md) -/

/-- A step runs the decoded instruction: on a tick of a running machine whose PC can be fetched from, when the two
bytes at PC decode to i, the step is exec i on the state after the host's keyboard sample and random byte. -/
def Obligations.StepRunsDecodedInstruction : Prop :=
  ∀ (s : State) (keys : Word) (rnd : Byte) (i : Instr),
    s.halt = none → s.awaitingKey = none → s.nextEvent = .tick keys rnd → s.pc.toNat + 1 < 4096 →
    decodeBytes [s.byte s.pc.toNat, s.byte (s.pc.toNat + 1)] = .ok (i, []) →
    step s = exec i (s.takeEvent.sample keys rnd)

/-- The fetch check: from PC = 4095 up a tick halts with FetchAddressFault, which reports PC if PC ≥ 4096 and 4096
otherwise, and changes nothing else but the keyboard sample and the host's fields (R104; that the fetch and not the
jump faults, and which address is reported, are the spec's decisions D15 and D24, log 14). -/
def Obligations.FetchOutsideMemoryHalts : Prop :=
  ∀ (s : State) (keys : Word) (rnd : Byte),
    s.halt = none → s.awaitingKey = none → s.nextEvent = .tick keys rnd → 4095 ≤ s.pc.toNat →
    step s = .next { s.takeEvent.sample keys rnd with
      halt := some (.fetchAddress (if 4096 ≤ s.pc.toNat then s.pc.toNat else 4096) s.pc) }

/-- R102: every tick of a running machine samples the keyboard, the sample stays to the end of the tick, and the tick
never sees the keyboard the state held before. -/
def Obligations.KeyboardIsSampledAtEveryTick : Prop :=
  ∀ (s : State) (keys old : Word) (rnd : Byte),
    s.halt = none → s.nextEvent = .tick keys rnd →
    (∃ t, step s = .next t ∧ t.keyboard = keys) ∧ step { s with keyboard := old } = step s

/-- A halted machine stays as it is: a tick and a timer tick change nothing but the host's own schedule, and only a
reset makes a running machine again (R101, R247; the stop of the timers is the spec's decision D23, log 5). -/
def Obligations.HaltedMachineChangesOnlyByReset : Prop :=
  ∀ (s : State) (f : Fault), s.halt = some f →
    (∀ keys rnd, s.nextEvent = .tick keys rnd → step s = .next s.takeEvent) ∧
    (s.nextEvent = .timerTick → step s = .next s.takeEvent) ∧
    (∀ t, step s = .next t → t.halt = none → ∃ img, s.nextEvent = .reset img)

/-- Progress: every step of every state answers a next state, but for a reset that cannot load its image. No word, no
state and no schedule makes the machine stop otherwise. That the faults of instructions and fetches are next states (the
spec's decision D23, log 5) and that a load error is the outcome fault (log 6) are the model's choices. -/
def Obligations.OnlyALoadErrorStopsTheMachine : Prop :=
  ∀ s : State, (∃ t, step s = .next t) ∨
    ∃ img len, s.nextEvent = .reset img ∧ step s = .fault (.loadError len) ∧
      ((img = none ∧ len = none) ∨ ∃ image, img = some image ∧ 3584 < image.length ∧ len = some image.length)

/-! ### Control flow (40_sequencer.md) -/

/-- R112. -/
def Obligations.JumpSetsPc : Prop :=
  ∀ (s : State) (nnn : Addr12),
    ∃ t, exec (.jp nnn) s = .next t ∧ t.pc.toNat = nnn.toNat ∧ Unchanged {} s t

/-- R118 without its fault clause: PC is the exact sum of nnn and V0. A target outside memory is no fault of the jump
(the spec's decision D15, log 14). -/
def Obligations.IndexedJumpAddsV0 : Prop :=
  ∀ (s : State) (nnn : Addr12),
    ∃ t, exec (.jpV0 nnn) s = .next t ∧ t.pc.toNat = nnn.toNat + (s.reg 0).toNat ∧ Unchanged {} s t

/-- R113: with room the return address goes to stack[SP] and SP rises by one, every other entry is unchanged; with
SP = 16 StackOverflow, and nothing else changes. That a fault is recorded in halt and writes nothing else are the spec's
decisions D23 and D14 (log 5, log 14). -/
def Obligations.CallPushesReturnAddress : Prop :=
  ∀ (s : State) (nnn : Addr12),
    ((h : s.sp.val < 16) → ∃ t, exec (.call nnn) s = .next t ∧ t.stackEntry ⟨s.sp.val, h⟩ = s.pc + 2 ∧
      t.sp.val = s.sp.val + 1 ∧ t.pc.toNat = nnn.toNat ∧
      (∀ k : Fin 16, k.val ≠ s.sp.val → t.stackEntry k = s.stackEntry k) ∧ Unchanged { stack := true } s t) ∧
    (s.sp.val = 16 → ∃ t, exec (.call nnn) s = .next t ∧ t.halt = some (.stackOverflow s.pc (0x2000 + nnn.setWidth 16)) ∧
      t.pc = s.pc ∧ Unchanged { halt := true } s t)

/-- R110: with SP > 0 PC is the entry below SP and SP falls by one, the entry is not cleared; with SP = 0
StackUnderflow, and nothing else changes. That a fault is recorded in halt and writes nothing else are the spec's
decisions D23 and D14 (log 5, log 14). -/
def Obligations.ReturnPopsReturnAddress : Prop :=
  ∀ s : State,
    (∀ k : Fin 16, s.sp.val = k.val + 1 → ∃ t, exec .ret s = .next t ∧ t.pc = s.stackEntry k ∧ t.sp.val = k.val ∧
      (∀ j, t.stackEntry j = s.stackEntry j) ∧ Unchanged { stack := true } s t) ∧
    (s.sp.val = 0 → ∃ t, exec .ret s = .next t ∧ t.halt = some (.stackUnderflow s.pc 0x00EE) ∧ t.pc = s.pc ∧
      Unchanged { halt := true } s t)

/-- A call and then a return, with anything between them that leaves the stack and its pointer alone, come back to the
instruction after the call with SP as before (95_test_vectors.md L1.5); the return clears no stack entry and changes
nothing else. -/
def Obligations.ReturnAfterCallComesBack : Prop :=
  ∀ (s t u : State) (nnn : Addr12), s.sp.val < 16 → exec (.call nnn) s = .next t →
    u.sp = t.sp → u.stack = t.stack →
    ∃ v, exec .ret u = .next v ∧ v.pc = s.pc + 2 ∧ v.sp = s.sp ∧ (∀ j, v.stackEntry j = u.stackEntry j) ∧
      Unchanged { stack := true } u v

/-- R114 and R115: the skips on a byte. -/
def Obligations.ByteSkips : Prop :=
  ∀ (s : State) (x : Reg) (nn : Byte),
    (∃ t, exec (.seByte x nn) s = .next t ∧ t.pc = (if s.reg x = nn then s.npc + 2 else s.npc) ∧
      Unchanged {} s t) ∧
    (∃ t, exec (.sneByte x nn) s = .next t ∧ t.pc = (if s.reg x ≠ nn then s.npc + 2 else s.npc) ∧
      Unchanged {} s t)

/-- Families 5 and 9 both skip when the registers differ (R116, R117, C2), whatever n is: that n is ignored is the spec's
decision D6 (log 13). With x = y they never skip. -/
def Obligations.RegisterSkipsOnInequality : Prop :=
  ∀ (s : State) (x y : Reg) (n : Nibble),
    (∃ t, exec (.sne5Reg x y n) s = .next t ∧ t.pc = (if s.reg x ≠ s.reg y then s.npc + 2 else s.npc) ∧
      Unchanged {} s t) ∧
    exec (.sneReg x y n) s = exec (.sne5Reg x y n) s ∧
    exec (.sne5Reg x x n) s = exec (.sys 0) s

/-- R111, R153, R212, R218: the four no-op classes have the single effect `PC <- npc`, for every word of theirs. -/
def Obligations.NoOpWordsOnlyAdvance : Prop :=
  ∀ (s : State) (x y : Reg) (n : Nibble) (nn : Byte) (nnn : Addr12),
    ∀ i ∈ [Instr.sys nnn, Instr.nop8 x y n, Instr.nopE x nn, Instr.nopF x nn],
      ∃ t, exec i s = .next t ∧ t = { s with pc := s.pc + 2 } ∧ Unchanged {} s t

/-! ### ALU (41_alu.md) -/

/-- R141 and R142: load and add a byte; the sum wraps modulo 256 and VF is not a flag here. -/
def Obligations.LoadAndAddByte : Prop :=
  ∀ (s : State) (x : Reg) (nn : Byte),
    (∃ t, exec (.ldByte x nn) s = .next t ∧ t.reg x = nn ∧ t.pc = s.npc ∧ Unchanged { regs := [x] } s t) ∧
    (∃ t, exec (.addByte x nn) s = .next t ∧ (t.reg x).toNat = ((s.reg x).toNat + nn.toNat) % 256 ∧
      t.pc = s.npc ∧ Unchanged { regs := [x] } s t)

/-- 8XY0 to 8XY3: assignment and the bitwise operations, bit by bit. That VF keeps its value unless x = 15 is the spec's
decision D5, that the operands are read first its decision D4 (log 12). -/
def Obligations.AssignAndBitwise : Prop :=
  ∀ (s : State) (x y : Reg),
    (∃ t, exec (.ldReg x y) s = .next t ∧ t.reg x = s.reg y ∧ t.pc = s.npc ∧ Unchanged { regs := [x] } s t) ∧
    (∃ t, exec (.orReg x y) s = .next t ∧
      (∀ k, (t.reg x).getLsbD k = ((s.reg x).getLsbD k || (s.reg y).getLsbD k)) ∧ t.pc = s.npc ∧
      Unchanged { regs := [x] } s t) ∧
    (∃ t, exec (.andReg x y) s = .next t ∧
      (∀ k, (t.reg x).getLsbD k = ((s.reg x).getLsbD k && (s.reg y).getLsbD k)) ∧ t.pc = s.npc ∧
      Unchanged { regs := [x] } s t) ∧
    (∃ t, exec (.xorReg x y) s = .next t ∧
      (∀ k, (t.reg x).getLsbD k = ((s.reg x).getLsbD k ^^ (s.reg y).getLsbD k)) ∧ t.pc = s.npc ∧
      Unchanged { regs := [x] } s t)

/-- R148: the sum modulo 256 in V[x] and the carry in VF, written last. That VF ends as the carry for x = 15 and that
the operands are read first are the spec's decisions D3 and D4 (log 12). -/
def Obligations.AddWithCarryOut : Prop :=
  ∀ (s : State) (x y : Reg),
    ∃ t, exec (.addReg x y) s = .next t ∧
      (x ≠ vf → (t.reg x).toNat = ((s.reg x).toNat + (s.reg y).toNat) % 256) ∧
      t.reg vf = (if (s.reg x).toNat + (s.reg y).toNat > 255 then 1 else 0) ∧ t.pc = s.npc ∧
      Unchanged { regs := [x, vf] } s t

/-- R149: the difference modulo 256 in V[x], VF = 1 exactly when there is no borrow, written last. That VF ends as the
flag for x = 15 and that the operands are read first are the spec's decisions D3 and D4 (log 12). -/
def Obligations.SubtractSetsNoBorrow : Prop :=
  ∀ (s : State) (x y : Reg),
    ∃ t, exec (.sub x y) s = .next t ∧
      (x ≠ vf → (t.reg x).toNat =
        if (s.reg x).toNat < (s.reg y).toNat then (s.reg x).toNat + 256 - (s.reg y).toNat
        else (s.reg x).toNat - (s.reg y).toNat) ∧
      t.reg vf = (if (s.reg x).toNat ≥ (s.reg y).toNat then 1 else 0) ∧ t.pc = s.npc ∧
      Unchanged { regs := [x, vf] } s t

/-- 8XY7: V[y] - V[x], VF = 1 exactly when there is no borrow; the condition is the spec's own inference from 8XY5
(R151, log 12). -/
def Obligations.ReverseSubtractSetsNoBorrow : Prop :=
  ∀ (s : State) (x y : Reg),
    ∃ t, exec (.subn x y) s = .next t ∧
      (x ≠ vf → (t.reg x).toNat =
        if (s.reg y).toNat < (s.reg x).toNat then (s.reg y).toNat + 256 - (s.reg x).toNat
        else (s.reg y).toNat - (s.reg x).toNat) ∧
      t.reg vf = (if (s.reg y).toNat ≥ (s.reg x).toNat then 1 else 0) ∧ t.pc = s.npc ∧
      Unchanged { regs := [x, vf] } s t

/-- 8XY6 and 8XYE: V[x] is halved or doubled, VF is the bit shifted out. That V[x] is shifted and y is ignored is the
spec's decision D2 (log 12): the result is the same for every y. -/
def Obligations.ShiftsMoveOneBitToVF : Prop :=
  ∀ (s : State) (x y : Reg),
    (∃ t, exec (.shr x y) s = .next t ∧ (x ≠ vf → (t.reg x).toNat = (s.reg x).toNat / 2) ∧
      (t.reg vf).toNat = (s.reg x).toNat % 2 ∧ t.pc = s.npc ∧ Unchanged { regs := [x, vf] } s t) ∧
    (∃ t, exec (.shl x y) s = .next t ∧ (x ≠ vf → (t.reg x).toNat = (s.reg x).toNat * 2 % 256) ∧
      (t.reg vf).toNat = (s.reg x).toNat / 128 ∧ t.pc = s.npc ∧ Unchanged { regs := [x, vf] } s t) ∧
    (∀ z, exec (.shr x z) s = exec (.shr x y) s ∧ exec (.shl x z) s = exec (.shl x y) s)

/-- The flag is written last: with VF as the destination each of the five flag-writing operations leaves the flag of the
old operands in VF and changes no other register (R143, the spec's decisions D3 and D4, log 12). -/
def Obligations.FlagIsWrittenLast : Prop :=
  ∀ (s : State) (y : Reg),
    (∃ t, exec (.addReg vf y) s = .next t ∧ t = { s.setReg vf (flagByte (decide
      ((s.reg vf).toNat + (s.reg y).toNat ≥ 256))) with pc := s.npc }) ∧
    (∃ t, exec (.sub vf y) s = .next t ∧ t = { s.setReg vf (flagByte (decide
      ((s.reg y).toNat ≤ (s.reg vf).toNat))) with pc := s.npc }) ∧
    (∃ t, exec (.subn vf y) s = .next t ∧ t = { s.setReg vf (flagByte (decide
      ((s.reg vf).toNat ≤ (s.reg y).toNat))) with pc := s.npc }) ∧
    (∃ t, exec (.shr vf y) s = .next t ∧ t = { s.setReg vf (flagByte (decide
      ((s.reg vf).toNat % 2 = 1))) with pc := s.npc }) ∧
    (∃ t, exec (.shl vf y) s = .next t ∧ t = { s.setReg vf (flagByte (decide
      (128 ≤ (s.reg vf).toNat))) with pc := s.npc })

/-- CXNN through a whole step: with the word of `RND Vx, nn` at PC, V[x] is the tick's random byte masked with nn, for
every random byte the host gives (R154; that the byte is free is the spec's decision D21, log 3). -/
def Obligations.RandomByteOfTheTickIsMasked : Prop :=
  ∀ (s : State) (x : Reg) (nn : Byte),
    (∃ t, exec (.rnd x nn) s = .next t ∧ t.reg x = s.rnd &&& nn ∧ t.pc = s.npc ∧ Unchanged { regs := [x] } s t) ∧
    (∀ (keys : Word) (rnd : Byte), s.halt = none → s.awaitingKey = none → s.nextEvent = .tick keys rnd →
      s.pc.toNat + 1 < 4096 → s.fetchWord = encode (.rnd x nn) →
      ∃ t, step s = .next t ∧ t.reg x = rnd &&& nn)

/-! ### Index and memory (42_index_memory.md) -/

/-- R170 and R172: I is nnn, or five times the whole byte V[x]. -/
def Obligations.IndexLoads : Prop :=
  ∀ (s : State) (x : Reg) (nnn : Addr12),
    (∃ t, exec (.ldI nnn) s = .next t ∧ t.i.toNat = nnn.toNat ∧ t.pc = s.npc ∧ Unchanged { i := true } s t) ∧
    (∃ t, exec (.ldF x) s = .next t ∧ t.i.toNat = (s.reg x).toNat * 5 ∧ t.pc = s.npc ∧
      Unchanged { i := true } s t)

/-- FX1E: I + V[x] modulo 2^16 and VF not written: the spec's decision D12 (R171, log 15). -/
def Obligations.IndexAddWraps : Prop :=
  ∀ (s : State) (x : Reg),
    ∃ t, exec (.addI x) s = .next t ∧ t.i.toNat = (s.i.toNat + (s.reg x).toNat) % 65536 ∧ t.pc = s.npc ∧
      Unchanged { i := true } s t

/-- R173: the three decimal digits go to I+1, I+2, I+3, the most significant first, and the byte at I and every other
byte stay; past the end of memory DataAddressFault with the lowest bad address and nothing written (the spec's decisions
D14 and D24, log 14). Memory is in its canonical form (an invariant of every step). -/
def Obligations.DecimalDigitsAfterI : Prop :=
  ∀ (s : State) (x : Reg), s.mem.wf = true →
    (s.i.toNat + 3 < 4096 → ∃ t, exec (.ldB x) s = .next t ∧
      (t.byte (s.i.toNat + 1)).toNat = (s.reg x).toNat / 100 ∧
      (t.byte (s.i.toNat + 2)).toNat = (s.reg x).toNat / 10 % 10 ∧
      (t.byte (s.i.toNat + 3)).toNat = (s.reg x).toNat % 10 ∧
      t.byte s.i.toNat = s.byte s.i.toNat ∧ t.pc = s.npc ∧
      Unchanged { mem := s.digitRange.addresses } s t) ∧
    (4096 ≤ s.i.toNat + 3 → ∃ t, exec (.ldB x) s = .next t ∧
      t.halt = some (.dataAddress (max (s.i.toNat + 1) 4096) s.pc (encode (.ldB x))) ∧ t.pc = s.pc ∧
      Unchanged { halt := true } s t)

/-- FX55: V0..Vx go to I..I+x, every other byte stays; past the end of memory DataAddressFault and no byte is written
(R174, and the spec's decisions D14 and D24, log 14). That I is unchanged is its decision D11 (log 15). Memory is in its
canonical form. -/
def Obligations.BlockStore : Prop :=
  ∀ (s : State) (x : Reg), s.mem.wf = true →
    (s.i.toNat + x.val < 4096 → ∃ t, exec (.ldMemVx x) s = .next t ∧
      (∀ k : Reg, k ≤ x → t.byte (s.i.toNat + k.val) = s.reg k) ∧ t.pc = s.npc ∧
      Unchanged { mem := (s.blockRange x).addresses } s t) ∧
    (4096 ≤ s.i.toNat + x.val → ∃ t, exec (.ldMemVx x) s = .next t ∧
      t.halt = some (.dataAddress (max s.i.toNat 4096) s.pc (encode (.ldMemVx x))) ∧ t.pc = s.pc ∧
      Unchanged { halt := true } s t)

/-- FX65: V0..Vx come from I..I+x, the registers above x stay; past the end of memory DataAddressFault and no register is
written (R175, and the spec's decisions D14 and D24, log 14). That I is unchanged is its decision D11 (log 15). -/
def Obligations.BlockLoad : Prop :=
  ∀ (s : State) (x : Reg),
    (s.i.toNat + x.val < 4096 → ∃ t, exec (.ldVxMem x) s = .next t ∧
      (∀ k : Reg, k ≤ x → t.reg k = s.byte (s.i.toNat + k.val)) ∧ t.pc = s.npc ∧
      Unchanged { regs := (List.finRange 16).filter fun k => decide (k ≤ x) } s t) ∧
    (4096 ≤ s.i.toNat + x.val → ∃ t, exec (.ldVxMem x) s = .next t ∧
      t.halt = some (.dataAddress (max s.i.toNat 4096) s.pc (encode (.ldVxMem x))) ∧ t.pc = s.pc ∧
      Unchanged { halt := true } s t)

/-- A block stored by FX55 is loaded back by FX65, whatever the registers hold in between: V0..Vx are as they were
stored (R174, R175 with I unchanged, D11, log 15). -/
def Obligations.BlockLoadRestoresBlockStore : Prop :=
  ∀ (s t u : State) (x : Reg), s.mem.wf = true → s.i.toNat + x.val < 4096 →
    exec (.ldMemVx x) s = .next t → u.mem = t.mem → u.i = t.i →
    ∃ w, exec (.ldVxMem x) u = .next w ∧ (∀ k : Reg, k ≤ x → w.reg k = s.reg k) ∧
      ∀ k : Reg, x < k → w.reg k = u.reg k

/-- A store into the next instruction is seen by its fetch: after FX55 with I = PC + 2 the word fetched next is V0, V1
(R63, R281: the spec's decision D28, log 16). -/
def Obligations.StoreIsSeenByNextFetch : Prop :=
  ∀ (s : State) (x : Reg), s.mem.wf = true → s.pc.toNat + 3 < 4096 → s.i = s.pc + 2 → 1 ≤ x →
    s.i.toNat + x.val < 4096 →
    ∃ t, exec (.ldMemVx x) s = .next t ∧ t.fetchWord = wordOfBytes (s.reg 0) (s.reg 1)

/-! ### Display (43_sprite_display.md) -/

/-- R191: all cells 0, VF not written. -/
def Obligations.ClearClearsEveryCell : Prop :=
  ∀ s : State, ∃ t, exec .cls s = .next t ∧ (∀ c r, t.cell c r = false) ∧ t.pc = s.npc ∧
    Unchanged { display := true } s t

/-- The whole effect of DXYN, cell by cell and not as a loop: every cell is XORed with the wrapped sprite's bit on it, and
VF is 1 exactly when some sprite bit meets a set cell; a sprite that leaves memory raises DataAddressFault and draws
nothing. Bit 7 as the leftmost and n = 0 are the spec's decisions D19 and D20 (log 17), wraparound R193, the fault D14 and D24
(log 14). -/
def Obligations.DrawXorsTheWrappedSprite : Prop :=
  ∀ (s : State) (x y : Reg) (n : Nibble),
    (n.toNat = 0 ∨ s.i.toNat + n.toNat ≤ 4096 → ∃ t, exec (.drw x y n) s = .next t ∧
      (∀ c r, t.cell c r = (s.cell c r ^^ s.spriteOn (s.reg x) (s.reg y) n.toNat c r)) ∧
      (t.reg vf = 1 ∨ t.reg vf = 0) ∧
      (t.reg vf = 1 ↔ ∃ c r, s.cell c r = true ∧ s.spriteOn (s.reg x) (s.reg y) n.toNat c r = true) ∧
      t.pc = s.npc ∧ Unchanged { regs := [vf], display := true } s t) ∧
    (0 < n.toNat → 4096 < s.i.toNat + n.toNat → ∃ t, exec (.drw x y n) s = .next t ∧
      t.halt = some (.dataAddress (max s.i.toNat 4096) s.pc (encode (.drw x y n))) ∧ t.pc = s.pc ∧
      Unchanged { halt := true } s t)

/-- R194: after a draw VF is 1 if the draw took any cell from 1 to 0, and 0 otherwise. That n = 0 is a draw without
collision is the spec's decision D20 (log 17). -/
def Obligations.CollisionIsACellTurnedOff : Prop :=
  ∀ (s : State) (x y : Reg) (n : Nibble), n.toNat = 0 ∨ s.i.toNat + n.toNat ≤ 4096 →
    ∃ t, exec (.drw x y n) s = .next t ∧
      ((∃ c r, s.cell c r = true ∧ t.cell c r = false) → t.reg vf = 1) ∧
      ((¬ ∃ c r, s.cell c r = true ∧ t.cell c r = false) → t.reg vf = 0)

/-- Drawing the same sprite twice restores the display, and the second draw collides exactly when the first one turned a
cell on (x and y name coordinates that the first draw's collision bit does not change). That n = 0 draws nothing and
cannot fault is the spec's decision D20 (log 17). -/
def Obligations.DrawingTwiceRestoresTheDisplay : Prop :=
  ∀ (s t : State) (x y : Reg) (n : Nibble), x ≠ vf → y ≠ vf → n.toNat = 0 ∨ s.i.toNat + n.toNat ≤ 4096 →
    exec (.drw x y n) s = .next t →
    ∃ u, exec (.drw x y n) t = .next u ∧ (∀ c r, u.cell c r = s.cell c r) ∧
      (u.reg vf = 1 ↔ ∃ c r, s.cell c r = false ∧ t.cell c r = true)

/-! ### Keys and timers (44_timers_keys.md) -/

/-- EX9E and EXA1: exactly one of them skips; a key number from 16 up is not held (R210, R211, R213: the spec's decision
D10, log 18). -/
def Obligations.KeySkips : Prop :=
  ∀ (s : State) (x : Reg),
    (∃ t, exec (.skp x) s = .next t ∧ Unchanged {} s t ∧
      t.pc = (if (s.reg x).toNat < 16 ∧ s.keyboard.toNat / 2 ^ (s.reg x).toNat % 2 = 1
        then s.npc + 2 else s.npc)) ∧
    (∃ t, exec (.sknp x) s = .next t ∧ Unchanged {} s t ∧
      t.pc = (if (s.reg x).toNat < 16 ∧ s.keyboard.toNat / 2 ^ (s.reg x).toNat % 2 = 1
        then s.npc else s.npc + 2))

/-- R214, R216, R217: the copies between V[x] and the timers. -/
def Obligations.TimerCopies : Prop :=
  ∀ (s : State) (x : Reg),
    (∃ t, exec (.ldVxDt x) s = .next t ∧ t.reg x = s.dt ∧ t.pc = s.npc ∧ Unchanged { regs := [x] } s t) ∧
    (∃ t, exec (.ldDtVx x) s = .next t ∧ t.dt = s.reg x ∧ t.pc = s.npc ∧ Unchanged { dt := true } s t) ∧
    (∃ t, exec (.ldStVx x) s = .next t ∧ t.st = s.reg x ∧ t.pc = s.npc ∧ Unchanged { st := true } s t)

/-- FX0A enters AwaitingKey(x) and writes no register; that PC moves past it at once is the spec's decision D9 (R215,
log 18). -/
def Obligations.KeyWaitBegins : Prop :=
  ∀ (s : State) (x : Reg),
    ∃ t, exec (.ldVxK x) s = .next t ∧ t.awaitingKey = some x ∧ t.pc = s.npc ∧
      Unchanged { awaitingKey := true } s t

/-- R221: a tick that starts in AwaitingKey(r) with a key held writes the lowest held key to V[r] and returns to Running;
with none held it changes nothing but the host's sample. That PC stays and no instruction runs in the resolving tick is
the spec's decision D9 (log 18). -/
def Obligations.KeyWaitResolvesToLowestKey : Prop :=
  ∀ (s : State) (keys : Word) (rnd : Byte) (r : Reg),
    s.halt = none → s.awaitingKey = some r → s.nextEvent = .tick keys rnd →
    (keys ≠ 0 → ∃ t, ∃ k : Reg, step s = .next t ∧ (t.reg r).toNat = k.val ∧ keys.getLsbD k.val = true ∧
      (∀ j, j < k.val → keys.getLsbD j = false) ∧ t.awaitingKey = none ∧ t.pc = s.pc ∧
      Unchanged { regs := [r], awaitingKey := true } (s.takeEvent.sample keys rnd) t) ∧
    (keys = 0 → step s = .next (s.takeEvent.sample keys rnd))

/-- A timer tick of a machine that is not halted takes one from each timer that is not 0, in either sub-machine state, and
changes nothing else (R223, R27, R28). That a halted machine's timers stand still, the spec's decision D23 (log 5), is in
`HaltedMachineChangesOnlyByReset`. -/
def Obligations.TimerTickCountsDown : Prop :=
  ∀ s : State, s.halt = none → s.nextEvent = .timerTick →
    ∃ t, step s = .next t ∧ t.dt.toNat = s.dt.toNat - 1 ∧ t.st.toNat = s.st.toNat - 1 ∧ t.pc = s.pc ∧
      Unchanged { dt := true, st := true } s.takeEvent t

/-- Nothing reads ST (R28): with another ST every instruction does the same, and ST ends as it was unless the
instruction is FX18. -/
def Obligations.SoundTimerIsNeverRead : Prop :=
  ∀ (i : Instr) (s t : State) (u : Byte), exec i s = .next t →
    exec i { s with st := u } = .next { t with st := if (footprintOf s i).st then t.st else u }

/-! ### The whole machine -/

/-- Every instruction changes only what its rule names: outside its footprint every register, every byte of memory, I,
the stack, the timers, the display and the key-wait state are as before. When it faults, only halt changes, and PC stays.
The spec's own decisions in it are, in the footprints: 8XY0 to 8XY3 keep VF D5 (log 12), FX55 and FX65 keep I D11 and
FX1E keeps VF D12 (log 15); in the faults: addresses do not wrap D13, a fault writes nothing else D14, a jump raises none
D15, the lowest bad address is reported D24 (log 14), DXYN with n = 0 raises none D20 (log 17), a fault is recorded in
halt D23 (log 5). -/
def Obligations.EveryInstructionKeepsItsFrame : Prop :=
  ∀ (i : Instr) (s : State),
    ∃ t, exec i s = .next t ∧
      (faultOf s i = none → Unchanged (footprintOf s i) s t ∧ t.halt = s.halt) ∧
      ∀ f, faultOf s i = some f → t = { s with halt := some f }

/-- R242, R243, R244: on a machine that is not halted, an instruction halts it exactly when it is DXYN, FX33, FX55 or
FX65 with an address of its range at or above 4096, 2NNN with SP = 16, or 00EE with SP = 0; the address reported is the
smallest bad one of the range. How a fault is recorded and which address it reports are the spec's decisions D23 and D24
(log 5, log 14), that n = 0 reads nothing its decision D20 (log 17). -/
def Obligations.FaultsAreExactlyTheListed : Prop :=
  ∀ (i : Instr) (s t : State), s.halt = none → exec i s = .next t →
    (∀ a pc w, t.halt = some (.dataAddress a pc w) ↔ pc = s.pc ∧ w = encode i ∧
      ∃ first last, (match i with
          | .drw _ _ n => 0 < n.toNat ∧ first = s.i.toNat ∧ last + 1 = s.i.toNat + n.toNat
          | .ldB _ => first = s.i.toNat + 1 ∧ last = s.i.toNat + 3
          | .ldMemVx x => first = s.i.toNat ∧ last = s.i.toNat + x.val
          | .ldVxMem x => first = s.i.toNat ∧ last = s.i.toNat + x.val
          | _ => False) ∧
        first ≤ a ∧ a ≤ last ∧ 4096 ≤ a ∧ ∀ b, first ≤ b → 4096 ≤ b → a ≤ b) ∧
    (∀ pc w, t.halt = some (.stackOverflow pc w) ↔ pc = s.pc ∧ w = encode i ∧ s.sp.val = 16 ∧ ∃ nnn, i = .call nnn) ∧
    (∀ pc w, t.halt = some (.stackUnderflow pc w) ↔ pc = s.pc ∧ w = encode i ∧ s.sp.val = 0 ∧ i = .ret) ∧
    (∀ a pc, t.halt ≠ some (.fetchAddress a pc)) ∧ (∀ len, t.halt ≠ some (.loadError len))

/-- Every step keeps the invariant, from every state that has it: memory stays in its canonical form, PC at most 0x10FE
and every stack entry at most 4096 (R106), a halted machine goes on showing the fault it is at (R246), and no fault
comes during a key wait (R222). -/
def Obligations.EveryStepKeepsTheInvariant : Prop :=
  ∀ s t : State, s.Inv → step s = .next t → t.Inv

/-- The machine after reset has the invariant; its stack entries are 0 by the spec's decision D17 (log 2). -/
def Obligations.ResetHasTheInvariant : Prop := State.reset.Inv

/-! ### Reset (70_reset_and_hazards.md) -/

/-- R245: a missing or oversized image is a load error, no machine exists after it, and no other image is one (of the
empty image, D25, `ResetPlacesGlyphsAndImage` speaks). That a reset event then answers the outcome fault is the model's
choice (log 6). -/
def Obligations.LoadErrorForMissingOrOversizedImage : Prop :=
  ∀ (glyphs : Vector Byte 80) (image : List Byte),
    State.create glyphs none = .error (.loadError none) ∧
    (4096 - 0x200 < image.length → State.create glyphs (some image) = .error (.loadError (some image.length))) ∧
    (0 < image.length → image.length ≤ 3584 → ∃ s, State.create glyphs (some image) = .ok s) ∧
    (∀ s : State, s.nextEvent = .reset none → step s = .fault (.loadError none)) ∧
    (∀ s : State, s.nextEvent = .reset (some image) → 3584 < image.length →
      step s = .fault (.loadError (some image.length)))

/-- Machine creation: memory holds the glyph table at 0, the image at 0x200 and 0 elsewhere; PC = 0x200, SP, I, DT, ST 0,
Running, not halted (R20, R270). V, stack, display and keyboard 0 are the spec's decision D17 (log 2); the table is the
parameter GLYPHS (D18, log 1); an empty image is accepted by D25 (log 7). With the default table and the empty image it is
State.reset. -/
def Obligations.ResetPlacesGlyphsAndImage : Prop :=
  (∀ (glyphs : Vector Byte 80) (image : List Byte), image.length ≤ 3584 →
    ∃ s, State.create glyphs (some image) = .ok s ∧ s.mem.wf = true ∧
      (∀ a, (h : a < 80) → s.byte a = glyphs[a]) ∧
      (∀ k, (h : k < image.length) → s.byte (0x200 + k) = image[k]) ∧
      (∀ a, 80 ≤ a → a < 0x200 ∨ 0x200 + image.length ≤ a → s.byte a = 0) ∧
      s.pc = 0x200 ∧ s.sp = 0 ∧ s.i = 0 ∧ s.dt = 0 ∧ s.st = 0 ∧ s.awaitingKey = none ∧ s.halt = none ∧
      (∀ r, s.reg r = 0) ∧ (∀ k, s.stackEntry k = 0) ∧ (∀ c r, s.cell c r = false) ∧ s.keyboard = 0) ∧
  State.create defaultGlyphs (some []) = .ok State.reset

/-- A reset event with an image that fits makes a new machine: the step answers the created machine, with only the
model's own schedule fields carried on (log 4), and nothing of the old machine reaches it, its fault and its key wait
included (R270, R247, R253). The default table is D18 (log 1), the empty image D25 (log 7), V, stack, display and
keyboard 0 D17 (log 2). -/
def Obligations.ResetEventMakesANewMachine : Prop :=
  ∀ (s : State) (image : List Byte), s.nextEvent = .reset (some image) → image.length ≤ 3584 →
    (∃ t, State.create defaultGlyphs (some image) = .ok t ∧
      step s = .next { t with inputs := s.takeEvent.inputs, eventNo := s.takeEvent.eventNo }) ∧
    ∀ u : State, u.inputs = s.inputs → u.eventNo = s.eventNo → step u = step s
end

