-- ==== Sys2Proof/Laws/Decode.lean ====
section
/-! SUPPORT. The fields of the words the encoder builds (30_encoding.md R71, R74), a word as its fields, and the
two bytes of a word. -/

namespace Sys2Proof

@[simp] theorem toFin_regBits (r : Reg) : (regBits r).toFin = r := rfl

@[simp] theorem regBits_toFin (b : Nibble) : regBits b.toFin = b := rfl

/-! ### Format NNN -/

@[simp] theorem familyOf_wordNNN (f : Nibble) (a : Addr12) : familyOf (wordNNN f a) = f :=
  (BitVec.extractLsb'_append_eq_of_le (by decide)).trans BitVec.extractLsb'_eq_self

@[simp] theorem nnnOf_wordNNN (f : Nibble) (a : Addr12) : nnnOf (wordNNN f a) = a :=
  BitVec.extractLsb'_append_eq_right

/-! ### Formats XNN and XK -/

@[simp] theorem familyOf_wordXNN (f : Nibble) (x : Reg) (b : Byte) : familyOf (wordXNN f x b) = f :=
  (BitVec.extractLsb'_append_eq_of_le (by decide)).trans <|
    (BitVec.extractLsb'_append_eq_of_le (by decide)).trans BitVec.extractLsb'_eq_self

@[simp] theorem xOf_wordXNN (f : Nibble) (x : Reg) (b : Byte) : xOf (wordXNN f x b) = x :=
  congrArg BitVec.toFin <| (BitVec.extractLsb'_append_eq_of_le (by decide)).trans <|
    BitVec.extractLsb'_append_eq_right (b := regBits x)

@[simp] theorem nnOf_wordXNN (f : Nibble) (x : Reg) (b : Byte) : nnOf (wordXNN f x b) = b :=
  BitVec.extractLsb'_append_eq_right

/-! ### Format XYN -/

@[simp] theorem familyOf_wordXYN (f : Nibble) (x y : Reg) (n : Nibble) : familyOf (wordXYN f x y n) = f :=
  (BitVec.extractLsb'_append_eq_of_le (by decide)).trans <|
    (BitVec.extractLsb'_append_eq_of_le (by decide)).trans <|
    (BitVec.extractLsb'_append_eq_of_le (by decide)).trans BitVec.extractLsb'_eq_self

@[simp] theorem xOf_wordXYN (f : Nibble) (x y : Reg) (n : Nibble) : xOf (wordXYN f x y n) = x :=
  congrArg BitVec.toFin <| (BitVec.extractLsb'_append_eq_of_le (by decide)).trans <|
    (BitVec.extractLsb'_append_eq_of_le (by decide)).trans <| BitVec.extractLsb'_append_eq_right (b := regBits x)

@[simp] theorem yOf_wordXYN (f : Nibble) (x y : Reg) (n : Nibble) : yOf (wordXYN f x y n) = y :=
  congrArg BitVec.toFin <| (BitVec.extractLsb'_append_eq_of_le (by decide)).trans <|
    BitVec.extractLsb'_append_eq_right (b := regBits y)

@[simp] theorem nOf_wordXYN (f : Nibble) (x y : Reg) (n : Nibble) : nOf (wordXYN f x y n) = n :=
  BitVec.extractLsb'_append_eq_right

/-! ### A word is its fields -/

theorem wordNNN_fields (w : Word) : wordNNN (familyOf w) (nnnOf w) = w :=
  (BitVec.extractLsb'_append_extractLsb'_eq_extractLsb' (x := w) rfl).trans BitVec.extractLsb'_eq_self

/-- The three formats cut the same word: nn is y and n, nnn is x and nn (R71). -/
theorem nnOf_eq (w : Word) : nnOf w = (regBits (yOf w) ++ nOf w : BitVec (4 + 4)) :=
  (BitVec.extractLsb'_append_extractLsb'_eq_extractLsb' (x := w) (start₁ := 0) (len₁ := 4) (len₂ := 4) rfl).symm

theorem nnnOf_eq (w : Word) : nnnOf w = (regBits (xOf w) ++ nnOf w : BitVec (4 + 8)) :=
  (BitVec.extractLsb'_append_extractLsb'_eq_extractLsb' (x := w) (start₁ := 0) (len₁ := 8) (len₂ := 4) rfl).symm

theorem wordXNN_fields (w : Word) : wordXNN (familyOf w) (xOf w) (nnOf w) = w := by
  refine Eq.trans ?_ (wordNNN_fields w)
  rw [wordNNN, nnnOf_eq, wordXNN]
  exact BitVec.append_assoc

theorem wordXYN_fields (w : Word) : wordXYN (familyOf w) (xOf w) (yOf w) (nOf w) = w := by
  refine Eq.trans ?_ (wordXNN_fields w)
  rw [wordXNN, nnOf_eq, wordXYN]
  exact BitVec.append_assoc

/-! ### Bytes -/

@[simp] theorem wordOfBytes_hi_lo (w : Word) : wordOfBytes (hiByte w) (loByte w) = w :=
  (BitVec.extractLsb'_append_extractLsb'_eq_extractLsb' (x := w) rfl).trans BitVec.extractLsb'_eq_self

/-- Two bytes are one instruction, the whole rest is left. -/
theorem decodeBytes_two (hi lo : Byte) (rest : List Byte) :
    decodeBytes (hi :: lo :: rest) = .ok (decode (wordOfBytes hi lo), rest) := rfl

end Sys2Proof
end

