-- ==== Sys2Proof/Laws/State.lean ====
section
/-! SUPPORT. What each named update does to each field of State, by rfl, so that no later proof unfolds a
record update. -/

namespace Sys2Proof.Machine
namespace State

/-! ### jump -/

@[simp] theorem jump_mem (s : State) (target : Word) : (s.jump target).mem = s.mem := rfl
@[simp] theorem jump_v (s : State) (target : Word) : (s.jump target).v = s.v := rfl
@[simp] theorem jump_i (s : State) (target : Word) : (s.jump target).i = s.i := rfl
@[simp] theorem jump_pc (s : State) (target : Word) : (s.jump target).pc = target := rfl
@[simp] theorem jump_stack (s : State) (target : Word) : (s.jump target).stack = s.stack := rfl
@[simp] theorem jump_sp (s : State) (target : Word) : (s.jump target).sp = s.sp := rfl
@[simp] theorem jump_dt (s : State) (target : Word) : (s.jump target).dt = s.dt := rfl
@[simp] theorem jump_st (s : State) (target : Word) : (s.jump target).st = s.st := rfl
@[simp] theorem jump_display (s : State) (target : Word) : (s.jump target).display = s.display := rfl
@[simp] theorem jump_keyboard (s : State) (target : Word) : (s.jump target).keyboard = s.keyboard := rfl
@[simp] theorem jump_awaitingKey (s : State) (target : Word) : (s.jump target).awaitingKey = s.awaitingKey := rfl
@[simp] theorem jump_halt (s : State) (target : Word) : (s.jump target).halt = s.halt := rfl
@[simp] theorem jump_rnd (s : State) (target : Word) : (s.jump target).rnd = s.rnd := rfl
@[simp] theorem jump_inputs (s : State) (target : Word) : (s.jump target).inputs = s.inputs := rfl
@[simp] theorem jump_eventNo (s : State) (target : Word) : (s.jump target).eventNo = s.eventNo := rfl

/-! ### advance -/

@[simp] theorem advance_mem (s : State) : (s.advance).mem = s.mem := rfl
@[simp] theorem advance_v (s : State) : (s.advance).v = s.v := rfl
@[simp] theorem advance_i (s : State) : (s.advance).i = s.i := rfl
@[simp] theorem advance_pc (s : State) : (s.advance).pc = s.npc := rfl
@[simp] theorem advance_stack (s : State) : (s.advance).stack = s.stack := rfl
@[simp] theorem advance_sp (s : State) : (s.advance).sp = s.sp := rfl
@[simp] theorem advance_dt (s : State) : (s.advance).dt = s.dt := rfl
@[simp] theorem advance_st (s : State) : (s.advance).st = s.st := rfl
@[simp] theorem advance_display (s : State) : (s.advance).display = s.display := rfl
@[simp] theorem advance_keyboard (s : State) : (s.advance).keyboard = s.keyboard := rfl
@[simp] theorem advance_awaitingKey (s : State) : (s.advance).awaitingKey = s.awaitingKey := rfl
@[simp] theorem advance_halt (s : State) : (s.advance).halt = s.halt := rfl
@[simp] theorem advance_rnd (s : State) : (s.advance).rnd = s.rnd := rfl
@[simp] theorem advance_inputs (s : State) : (s.advance).inputs = s.inputs := rfl
@[simp] theorem advance_eventNo (s : State) : (s.advance).eventNo = s.eventNo := rfl

/-! ### skipIf -/

@[simp] theorem skipIf_mem (s : State) (b : Bool) : (s.skipIf b).mem = s.mem := rfl
@[simp] theorem skipIf_v (s : State) (b : Bool) : (s.skipIf b).v = s.v := rfl
@[simp] theorem skipIf_i (s : State) (b : Bool) : (s.skipIf b).i = s.i := rfl
@[simp] theorem skipIf_pc (s : State) (b : Bool) : (s.skipIf b).pc = if b then s.npc + 2 else s.npc := rfl
@[simp] theorem skipIf_stack (s : State) (b : Bool) : (s.skipIf b).stack = s.stack := rfl
@[simp] theorem skipIf_sp (s : State) (b : Bool) : (s.skipIf b).sp = s.sp := rfl
@[simp] theorem skipIf_dt (s : State) (b : Bool) : (s.skipIf b).dt = s.dt := rfl
@[simp] theorem skipIf_st (s : State) (b : Bool) : (s.skipIf b).st = s.st := rfl
@[simp] theorem skipIf_display (s : State) (b : Bool) : (s.skipIf b).display = s.display := rfl
@[simp] theorem skipIf_keyboard (s : State) (b : Bool) : (s.skipIf b).keyboard = s.keyboard := rfl
@[simp] theorem skipIf_awaitingKey (s : State) (b : Bool) : (s.skipIf b).awaitingKey = s.awaitingKey := rfl
@[simp] theorem skipIf_halt (s : State) (b : Bool) : (s.skipIf b).halt = s.halt := rfl
@[simp] theorem skipIf_rnd (s : State) (b : Bool) : (s.skipIf b).rnd = s.rnd := rfl
@[simp] theorem skipIf_inputs (s : State) (b : Bool) : (s.skipIf b).inputs = s.inputs := rfl
@[simp] theorem skipIf_eventNo (s : State) (b : Bool) : (s.skipIf b).eventNo = s.eventNo := rfl

/-! ### setReg -/

@[simp] theorem setReg_mem (s : State) (r : Reg) (u : Byte) : (s.setReg r u).mem = s.mem := rfl
@[simp] theorem setReg_v (s : State) (r : Reg) (u : Byte) : (s.setReg r u).v = s.v.set r u := rfl
@[simp] theorem setReg_i (s : State) (r : Reg) (u : Byte) : (s.setReg r u).i = s.i := rfl
@[simp] theorem setReg_pc (s : State) (r : Reg) (u : Byte) : (s.setReg r u).pc = s.pc := rfl
@[simp] theorem setReg_stack (s : State) (r : Reg) (u : Byte) : (s.setReg r u).stack = s.stack := rfl
@[simp] theorem setReg_sp (s : State) (r : Reg) (u : Byte) : (s.setReg r u).sp = s.sp := rfl
@[simp] theorem setReg_dt (s : State) (r : Reg) (u : Byte) : (s.setReg r u).dt = s.dt := rfl
@[simp] theorem setReg_st (s : State) (r : Reg) (u : Byte) : (s.setReg r u).st = s.st := rfl
@[simp] theorem setReg_display (s : State) (r : Reg) (u : Byte) : (s.setReg r u).display = s.display := rfl
@[simp] theorem setReg_keyboard (s : State) (r : Reg) (u : Byte) : (s.setReg r u).keyboard = s.keyboard := rfl
@[simp] theorem setReg_awaitingKey (s : State) (r : Reg) (u : Byte) : (s.setReg r u).awaitingKey = s.awaitingKey := rfl
@[simp] theorem setReg_halt (s : State) (r : Reg) (u : Byte) : (s.setReg r u).halt = s.halt := rfl
@[simp] theorem setReg_rnd (s : State) (r : Reg) (u : Byte) : (s.setReg r u).rnd = s.rnd := rfl
@[simp] theorem setReg_inputs (s : State) (r : Reg) (u : Byte) : (s.setReg r u).inputs = s.inputs := rfl
@[simp] theorem setReg_eventNo (s : State) (r : Reg) (u : Byte) : (s.setReg r u).eventNo = s.eventNo := rfl

/-! ### storeBytes -/

@[simp] theorem storeBytes_mem (s : State) (a : Nat) (us : List Byte) : (s.storeBytes a us).mem = s.mem.writeList a us := rfl
@[simp] theorem storeBytes_v (s : State) (a : Nat) (us : List Byte) : (s.storeBytes a us).v = s.v := rfl
@[simp] theorem storeBytes_i (s : State) (a : Nat) (us : List Byte) : (s.storeBytes a us).i = s.i := rfl
@[simp] theorem storeBytes_pc (s : State) (a : Nat) (us : List Byte) : (s.storeBytes a us).pc = s.pc := rfl
@[simp] theorem storeBytes_stack (s : State) (a : Nat) (us : List Byte) : (s.storeBytes a us).stack = s.stack := rfl
@[simp] theorem storeBytes_sp (s : State) (a : Nat) (us : List Byte) : (s.storeBytes a us).sp = s.sp := rfl
@[simp] theorem storeBytes_dt (s : State) (a : Nat) (us : List Byte) : (s.storeBytes a us).dt = s.dt := rfl
@[simp] theorem storeBytes_st (s : State) (a : Nat) (us : List Byte) : (s.storeBytes a us).st = s.st := rfl
@[simp] theorem storeBytes_display (s : State) (a : Nat) (us : List Byte) : (s.storeBytes a us).display = s.display := rfl
@[simp] theorem storeBytes_keyboard (s : State) (a : Nat) (us : List Byte) : (s.storeBytes a us).keyboard = s.keyboard := rfl
@[simp] theorem storeBytes_awaitingKey (s : State) (a : Nat) (us : List Byte) : (s.storeBytes a us).awaitingKey = s.awaitingKey := rfl
@[simp] theorem storeBytes_halt (s : State) (a : Nat) (us : List Byte) : (s.storeBytes a us).halt = s.halt := rfl
@[simp] theorem storeBytes_rnd (s : State) (a : Nat) (us : List Byte) : (s.storeBytes a us).rnd = s.rnd := rfl
@[simp] theorem storeBytes_inputs (s : State) (a : Nat) (us : List Byte) : (s.storeBytes a us).inputs = s.inputs := rfl
@[simp] theorem storeBytes_eventNo (s : State) (a : Nat) (us : List Byte) : (s.storeBytes a us).eventNo = s.eventNo := rfl

/-! ### loadRegsUpTo -/

@[simp] theorem loadRegsUpTo_mem (s : State) (x : Reg) (a : Nat) : (s.loadRegsUpTo x a).mem = s.mem := rfl
@[simp] theorem loadRegsUpTo_i (s : State) (x : Reg) (a : Nat) : (s.loadRegsUpTo x a).i = s.i := rfl
@[simp] theorem loadRegsUpTo_pc (s : State) (x : Reg) (a : Nat) : (s.loadRegsUpTo x a).pc = s.pc := rfl
@[simp] theorem loadRegsUpTo_stack (s : State) (x : Reg) (a : Nat) : (s.loadRegsUpTo x a).stack = s.stack := rfl
@[simp] theorem loadRegsUpTo_sp (s : State) (x : Reg) (a : Nat) : (s.loadRegsUpTo x a).sp = s.sp := rfl
@[simp] theorem loadRegsUpTo_dt (s : State) (x : Reg) (a : Nat) : (s.loadRegsUpTo x a).dt = s.dt := rfl
@[simp] theorem loadRegsUpTo_st (s : State) (x : Reg) (a : Nat) : (s.loadRegsUpTo x a).st = s.st := rfl
@[simp] theorem loadRegsUpTo_display (s : State) (x : Reg) (a : Nat) : (s.loadRegsUpTo x a).display = s.display := rfl
@[simp] theorem loadRegsUpTo_keyboard (s : State) (x : Reg) (a : Nat) : (s.loadRegsUpTo x a).keyboard = s.keyboard := rfl
@[simp] theorem loadRegsUpTo_awaitingKey (s : State) (x : Reg) (a : Nat) : (s.loadRegsUpTo x a).awaitingKey = s.awaitingKey := rfl
@[simp] theorem loadRegsUpTo_halt (s : State) (x : Reg) (a : Nat) : (s.loadRegsUpTo x a).halt = s.halt := rfl
@[simp] theorem loadRegsUpTo_rnd (s : State) (x : Reg) (a : Nat) : (s.loadRegsUpTo x a).rnd = s.rnd := rfl
@[simp] theorem loadRegsUpTo_inputs (s : State) (x : Reg) (a : Nat) : (s.loadRegsUpTo x a).inputs = s.inputs := rfl
@[simp] theorem loadRegsUpTo_eventNo (s : State) (x : Reg) (a : Nat) : (s.loadRegsUpTo x a).eventNo = s.eventNo := rfl

/-! ### setResultAndFlag -/

@[simp] theorem setResultAndFlag_mem (s : State) (x : Reg) (u f : Byte) : (s.setResultAndFlag x u f).mem = s.mem := rfl
@[simp] theorem setResultAndFlag_i (s : State) (x : Reg) (u f : Byte) : (s.setResultAndFlag x u f).i = s.i := rfl
@[simp] theorem setResultAndFlag_pc (s : State) (x : Reg) (u f : Byte) : (s.setResultAndFlag x u f).pc = s.pc := rfl
@[simp] theorem setResultAndFlag_stack (s : State) (x : Reg) (u f : Byte) : (s.setResultAndFlag x u f).stack = s.stack := rfl
@[simp] theorem setResultAndFlag_sp (s : State) (x : Reg) (u f : Byte) : (s.setResultAndFlag x u f).sp = s.sp := rfl
@[simp] theorem setResultAndFlag_dt (s : State) (x : Reg) (u f : Byte) : (s.setResultAndFlag x u f).dt = s.dt := rfl
@[simp] theorem setResultAndFlag_st (s : State) (x : Reg) (u f : Byte) : (s.setResultAndFlag x u f).st = s.st := rfl
@[simp] theorem setResultAndFlag_display (s : State) (x : Reg) (u f : Byte) : (s.setResultAndFlag x u f).display = s.display := rfl
@[simp] theorem setResultAndFlag_keyboard (s : State) (x : Reg) (u f : Byte) : (s.setResultAndFlag x u f).keyboard = s.keyboard := rfl
@[simp] theorem setResultAndFlag_awaitingKey (s : State) (x : Reg) (u f : Byte) : (s.setResultAndFlag x u f).awaitingKey = s.awaitingKey := rfl
@[simp] theorem setResultAndFlag_halt (s : State) (x : Reg) (u f : Byte) : (s.setResultAndFlag x u f).halt = s.halt := rfl
@[simp] theorem setResultAndFlag_rnd (s : State) (x : Reg) (u f : Byte) : (s.setResultAndFlag x u f).rnd = s.rnd := rfl
@[simp] theorem setResultAndFlag_inputs (s : State) (x : Reg) (u f : Byte) : (s.setResultAndFlag x u f).inputs = s.inputs := rfl
@[simp] theorem setResultAndFlag_eventNo (s : State) (x : Reg) (u f : Byte) : (s.setResultAndFlag x u f).eventNo = s.eventNo := rfl

/-! ### sample -/

@[simp] theorem sample_mem (s : State) (keys : Word) (b : Byte) : (s.sample keys b).mem = s.mem := rfl
@[simp] theorem sample_v (s : State) (keys : Word) (b : Byte) : (s.sample keys b).v = s.v := rfl
@[simp] theorem sample_i (s : State) (keys : Word) (b : Byte) : (s.sample keys b).i = s.i := rfl
@[simp] theorem sample_pc (s : State) (keys : Word) (b : Byte) : (s.sample keys b).pc = s.pc := rfl
@[simp] theorem sample_stack (s : State) (keys : Word) (b : Byte) : (s.sample keys b).stack = s.stack := rfl
@[simp] theorem sample_sp (s : State) (keys : Word) (b : Byte) : (s.sample keys b).sp = s.sp := rfl
@[simp] theorem sample_dt (s : State) (keys : Word) (b : Byte) : (s.sample keys b).dt = s.dt := rfl
@[simp] theorem sample_st (s : State) (keys : Word) (b : Byte) : (s.sample keys b).st = s.st := rfl
@[simp] theorem sample_display (s : State) (keys : Word) (b : Byte) : (s.sample keys b).display = s.display := rfl
@[simp] theorem sample_keyboard (s : State) (keys : Word) (b : Byte) : (s.sample keys b).keyboard = keys := rfl
@[simp] theorem sample_awaitingKey (s : State) (keys : Word) (b : Byte) : (s.sample keys b).awaitingKey = s.awaitingKey := rfl
@[simp] theorem sample_halt (s : State) (keys : Word) (b : Byte) : (s.sample keys b).halt = s.halt := rfl
@[simp] theorem sample_rnd (s : State) (keys : Word) (b : Byte) : (s.sample keys b).rnd = b := rfl
@[simp] theorem sample_inputs (s : State) (keys : Word) (b : Byte) : (s.sample keys b).inputs = s.inputs := rfl
@[simp] theorem sample_eventNo (s : State) (keys : Word) (b : Byte) : (s.sample keys b).eventNo = s.eventNo := rfl

/-! ### Reads through updates of other fields -/

@[simp] theorem reg_jump (s : State) (p : Word) (r : Reg) : (s.jump p).reg r = s.reg r := rfl
@[simp] theorem reg_advance (s : State) (r : Reg) : s.advance.reg r = s.reg r := rfl
@[simp] theorem reg_skipIf (s : State) (b : Bool) (r : Reg) : (s.skipIf b).reg r = s.reg r := rfl
@[simp] theorem reg_storeBytes (s : State) (a : Nat) (us : List Byte) (r : Reg) :
    (s.storeBytes a us).reg r = s.reg r := rfl
@[simp] theorem reg_sample (s : State) (k : Word) (b : Byte) (r : Reg) : (s.sample k b).reg r = s.reg r := rfl

@[simp] theorem byte_jump (s : State) (p : Word) (a : Nat) : (s.jump p).byte a = s.byte a := rfl
@[simp] theorem byte_advance (s : State) (a : Nat) : s.advance.byte a = s.byte a := rfl
@[simp] theorem byte_skipIf (s : State) (b : Bool) (a : Nat) : (s.skipIf b).byte a = s.byte a := rfl
@[simp] theorem byte_setReg (s : State) (r : Reg) (u : Byte) (a : Nat) : (s.setReg r u).byte a = s.byte a := rfl
@[simp] theorem byte_setResultAndFlag (s : State) (x : Reg) (u f : Byte) (a : Nat) :
    (s.setResultAndFlag x u f).byte a = s.byte a := rfl
@[simp] theorem byte_loadRegsUpTo (s : State) (x : Reg) (b a : Nat) :
    (s.loadRegsUpTo x b).byte a = s.byte a := rfl
@[simp] theorem byte_sample (s : State) (k : Word) (b : Byte) (a : Nat) : (s.sample k b).byte a = s.byte a := rfl

/-- npc is a function of PC alone. -/
theorem npc_of_pc_eq {s t : State} (h : s.pc = t.pc) : s.npc = t.npc := congrArg (· + 2) h
@[simp] theorem npc_setReg (s : State) (r : Reg) (u : Byte) : (s.setReg r u).npc = s.npc := rfl
@[simp] theorem npc_setResultAndFlag (s : State) (x : Reg) (u f : Byte) : (s.setResultAndFlag x u f).npc = s.npc := rfl
@[simp] theorem npc_storeBytes (s : State) (a : Nat) (us : List Byte) : (s.storeBytes a us).npc = s.npc := rfl
@[simp] theorem npc_loadRegsUpTo (s : State) (x : Reg) (a : Nat) : (s.loadRegsUpTo x a).npc = s.npc := rfl
@[simp] theorem npc_sample (s : State) (k : Word) (b : Byte) : (s.sample k b).npc = s.npc := rfl

/-! ### takeEvent: only the host's schedule changes -/

@[simp] theorem takeEvent_mem (s : State) : s.takeEvent.mem = s.mem := by
  unfold takeEvent; split <;> rfl
@[simp] theorem takeEvent_v (s : State) : s.takeEvent.v = s.v := by
  unfold takeEvent; split <;> rfl
@[simp] theorem takeEvent_i (s : State) : s.takeEvent.i = s.i := by
  unfold takeEvent; split <;> rfl
@[simp] theorem takeEvent_pc (s : State) : s.takeEvent.pc = s.pc := by
  unfold takeEvent; split <;> rfl
@[simp] theorem takeEvent_stack (s : State) : s.takeEvent.stack = s.stack := by
  unfold takeEvent; split <;> rfl
@[simp] theorem takeEvent_sp (s : State) : s.takeEvent.sp = s.sp := by
  unfold takeEvent; split <;> rfl
@[simp] theorem takeEvent_dt (s : State) : s.takeEvent.dt = s.dt := by
  unfold takeEvent; split <;> rfl
@[simp] theorem takeEvent_st (s : State) : s.takeEvent.st = s.st := by
  unfold takeEvent; split <;> rfl
@[simp] theorem takeEvent_display (s : State) : s.takeEvent.display = s.display := by
  unfold takeEvent; split <;> rfl
@[simp] theorem takeEvent_keyboard (s : State) : s.takeEvent.keyboard = s.keyboard := by
  unfold takeEvent; split <;> rfl
@[simp] theorem takeEvent_awaitingKey (s : State) : s.takeEvent.awaitingKey = s.awaitingKey := by
  unfold takeEvent; split <;> rfl
@[simp] theorem takeEvent_halt (s : State) : s.takeEvent.halt = s.halt := by
  unfold takeEvent; split <;> rfl
@[simp] theorem takeEvent_rnd (s : State) : s.takeEvent.rnd = s.rnd := by
  unfold takeEvent; split <;> rfl
@[simp] theorem takeEvent_byte (s : State) (a : Nat) : s.takeEvent.byte a = s.byte a := by
  simp only [byte, takeEvent_mem]
@[simp] theorem takeEvent_reg (s : State) (r : Reg) : s.takeEvent.reg r = s.reg r := by
  simp only [reg, takeEvent_v]

end State
end Sys2Proof.Machine
end

