-- ==== Sys2Proof/Laws/Memory.lean ====
section
/-! SUPPORT. The laws of memory: read after write, other addresses, and the canonical form, which every memory
operation keeps and which makes equal memories equal data. -/

namespace Sys2Proof.Machine
namespace Memory

/-- Every listed address is above a. -/
def above (a : Nat) (m : Memory) : Prop := ∀ c ∈ m, a < c.1

theorem above_of_all {a : Nat} {m : Memory} (h : m.all (fun c => decide (a < c.1)) = true) : above a m := by
  simpa [above] using h

theorem wf_cons {a : Nat} {u : Byte} {m : Memory} :
    wf ((a, u) :: m) = true ↔ a < Config.memSize ∧ u ≠ unlisted a ∧ above a m ∧ wf m = true := by
  simp [wf, above, and_assoc]

/-- An address below every listed one reads as unlisted. -/
theorem read_of_above {a : Nat} {m : Memory} (h : above a m) : read m a = unlisted a := by
  induction m with
  | nil => rfl
  | cons c m ih =>
    have hc : a < c.1 := h c (by simp)
    simp only [read, if_neg (Nat.ne_of_lt hc)]
    exact ih fun d hd => h d (by simp [hd])

theorem above_trans {a b : Nat} {m : Memory} (h : a < b) (hm : above b m) : above a m :=
  fun c hc => Nat.lt_trans h (hm c hc)

/-- A write leaves every other address alone. -/
theorem read_write_other (m : Memory) {a b : Nat} (u : Byte) (h : b ≠ a) : read (write m a u) b = read m b := by
  induction m with
  | nil => simp only [write]; split <;> simp [read, h]
  | cons c m ih =>
    obtain ⟨d, w⟩ := c
    simp only [write]
    split
    · split <;> simp [read, h]
    · split
      · next hd => subst hd; split <;> simp [read, h]
      · simp only [read, ih]

/-- A read after a write to the same address gives the value written. -/
theorem read_write_same {m : Memory} (hm : wf m = true) (a : Nat) (u : Byte) : read (write m a u) a = u := by
  induction m with
  | nil => simp only [write]; split <;> simp_all [read]
  | cons c m ih =>
    obtain ⟨d, w⟩ := c
    obtain ⟨-, -, hab, hwf⟩ := wf_cons.1 hm
    simp only [write]
    split
    · next had =>
      split
      · next hu =>
        rw [hu, read, if_neg (Nat.ne_of_lt had)]
        exact read_of_above (above_trans had hab)
      · simp [read]
    · split
      · next hd =>
        subst hd
        split
        · next hu => rw [hu]; exact read_of_above hab
        · simp [read]
      · next hne => simp only [read, if_neg hne]; exact ih hwf

theorem write_above {m : Memory} {a b : Nat} {u : Byte} (h : b < a) (hm : above b m) : above b (write m a u) := by
  induction m with
  | nil => simp only [write]; split <;> simp [above, h]
  | cons c m ih =>
    obtain ⟨d, w⟩ := c
    have hd : b < d := hm (d, w) (by simp)
    have hm' : above b m := fun c hc => hm c (by simp [hc])
    simp only [write]
    split
    · split
      · exact hm
      · intro c hc; rcases List.mem_cons.1 hc with rfl | hc
        · exact h
        · exact hm c hc
    · split
      · split
        · exact hm'
        · intro c hc; rcases List.mem_cons.1 hc with rfl | hc
          · exact h
          · exact hm' c hc
      · intro c hc; rcases List.mem_cons.1 hc with rfl | hc
        · exact hd
        · exact ih hm' c hc

/-- A write inside memory keeps the canonical form. -/
theorem write_wf {m : Memory} {a : Nat} (u : Byte) (ha : a < Config.memSize) (hm : wf m = true) :
    wf (write m a u) = true := by
  induction m with
  | nil => simp only [write]; split <;> simp_all [wf]
  | cons c m ih =>
    obtain ⟨d, w⟩ := c
    obtain ⟨hd, hw, hab, hwf⟩ := wf_cons.1 hm
    simp only [write]
    split
    · next had =>
      split
      · exact hm
      · next hu =>
        refine wf_cons.2 ⟨ha, hu, fun c hc => ?_, hm⟩
        rcases List.mem_cons.1 hc with rfl | hc
        · exact had
        · exact Nat.lt_trans had (hab c hc)
    · split
      · next hd' =>
        subst hd'
        split
        · exact hwf
        · next hu => exact wf_cons.2 ⟨ha, hu, hab, hwf⟩
      · next h1 h2 => exact wf_cons.2 ⟨hd, hw, write_above (by omega) hab, ih hwf⟩

/-- Writing a list of bytes inside memory keeps the canonical form. -/
theorem writeList_wf {m : Memory} {a : Nat} {us : List Byte} (h : a + us.length ≤ Config.memSize)
    (hm : wf m = true) : wf (writeList m a us) = true := by
  induction us generalizing m a with
  | nil => exact hm
  | cons u us ih =>
    rw [List.length_cons] at h
    exact ih (by omega) (write_wf u (by omega) hm)

/-- Writing a list of bytes leaves every address outside its range alone. -/
theorem read_writeList_outside (m : Memory) {a b : Nat} (us : List Byte) (h : b < a ∨ a + us.length ≤ b) :
    read (writeList m a us) b = read m b := by
  induction us generalizing m a with
  | nil => rfl
  | cons u us ih =>
    rw [List.length_cons] at h
    rw [writeList, ih (m.write a u) (by omega), read_write_other m u (by omega)]

/-- After writing a list of bytes, address a + k holds the k-th. -/
theorem read_writeList_inside {m : Memory} {a k : Nat} {us : List Byte} (hm : wf m = true)
    (h : a + us.length ≤ Config.memSize) (hk : k < us.length) : read (writeList m a us) (a + k) = us[k] := by
  induction us generalizing m a k with
  | nil => simp at hk
  | cons u us ih =>
    rw [List.length_cons] at h hk
    rw [writeList]
    cases k with
    | zero =>
      rw [read_writeList_outside _ us (by omega)]
      exact read_write_same hm a u
    | succ k =>
      have hw : wf (m.write a u) = true := write_wf u (by omega) hm
      have := ih (a := a + 1) (k := k) hw (by omega) (by omega)
      rw [Nat.add_assoc, Nat.add_comm 1 k] at this
      simpa using this

/-- The canonical form is canonical: two memories in it that read alike are the same list. -/
theorem eq_of_read_eq {m n : Memory} (hm : wf m = true) (hn : wf n = true) (h : ∀ a, read m a = read n a) :
    m = n := by
  induction m generalizing n with
  | nil =>
    cases n with
    | nil => rfl
    | cons c n =>
      obtain ⟨-, hu, -, -⟩ := wf_cons.1 hn
      have := h c.1
      simp only [read, if_true] at this
      exact absurd this.symm hu
  | cons c m ih =>
    obtain ⟨a, u⟩ := c
    obtain ⟨-, hu, hab, hwf⟩ := wf_cons.1 hm
    cases n with
    | nil =>
      have := h a
      simp only [read, if_true] at this
      exact absurd this hu
    | cons d n =>
      obtain ⟨b, w⟩ := d
      obtain ⟨-, hw, hbn, hnf⟩ := wf_cons.1 hn
      have hlt : ∀ {p q : Nat} {y z : Byte} {k l : Memory}, above p k → above q l → y ≠ unlisted p →
          (∀ e, read ((p, y) :: k) e = read ((q, z) :: l) e) → ¬ p < q := by
        intro p q y z k l _ hl hy he hpq
        have := he p
        rw [read, if_pos rfl, read_of_above] at this
        · exact hy this
        · intro c hc
          rcases List.mem_cons.1 hc with rfl | hc
          · exact hpq
          · exact Nat.lt_trans hpq (hl c hc)
      have heq : a = b :=
        Nat.le_antisymm (Nat.not_lt.1 (hlt hbn hab hw fun e => (h e).symm)) (Nat.not_lt.1 (hlt hab hbn hu h))
      subst heq
      have huw : u = w := by simpa [read] using h a
      subst huw
      congr 1
      refine ih hwf hnf fun e => ?_
      by_cases he : e = a
      · subst he; rw [read_of_above hab, read_of_above hbn]
      · simpa [read, he] using h e

end Memory

/-- Reset memory has the canonical form. -/
theorem reset_mem_wf : Memory.wf State.reset.mem = true := rfl

end Sys2Proof.Machine
end

