-- ==== Sys2Proof/Laws/Ops.lean ====
section
/-! SUPPORT. One lemma per shared operation that says everything it can do; later proofs cite these and do not
unfold the operations. -/

namespace Sys2Proof.Machine

/-! ### Registers -/

theorem reg_setReg (s : State) (r q : Reg) (u : Byte) : (s.setReg r u).reg q = if q = r then u else s.reg q := by
  simp only [State.reg, State.setReg, Fin.getElem_fin, Vector.getElem_set, Fin.ext_iff, eq_comm]

@[simp] theorem reg_setReg_same (s : State) (r : Reg) (u : Byte) : (s.setReg r u).reg r = u := by
  simp [reg_setReg]

theorem reg_setReg_other (s : State) {r q : Reg} (u : Byte) (h : q ≠ r) : (s.setReg r u).reg q = s.reg q := by
  simp [reg_setReg, h]

/-- The flag is written last: it stands in VF whatever x is, the result stands in V[x] unless x is VF. -/
theorem reg_setResultAndFlag (s : State) (x q : Reg) (u f : Byte) :
    (s.setResultAndFlag x u f).reg q = if q = vf then f else if q = x then u else s.reg q := by
  simp only [State.setResultAndFlag, reg_setReg]

theorem reg_loadRegsUpTo (s : State) (x q : Reg) (a : Nat) :
    (s.loadRegsUpTo x a).reg q = if q ≤ x then s.byte (a + q.val) else s.reg q := by
  simp [State.reg, State.loadRegsUpTo]

theorem regsUpTo_eq (s : State) (x : Reg) :
    s.regsUpTo x = ((List.finRange 16).take (x.val + 1)).map s.reg := by
  unfold State.regsUpTo
  congr 1
  revert x
  decide

@[simp] theorem length_regsUpTo (s : State) (x : Reg) : (s.regsUpTo x).length = x.val + 1 := by
  rw [regsUpTo_eq]; simp

theorem getElem_regsUpTo (s : State) (x : Reg) {k : Nat} (h : k < (s.regsUpTo x).length) :
    (s.regsUpTo x)[k] = s.reg ⟨k, by rw [length_regsUpTo] at h; omega⟩ := by
  simp only [regsUpTo_eq, List.getElem_map, List.getElem_take, List.getElem_finRange]; rfl

/-! ### Memory -/

@[simp] theorem length_bytes (s : State) (a n : Nat) : (s.bytes a n).length = n := by simp [State.bytes]

theorem getElem_bytes (s : State) (a n : Nat) {k : Nat} (h : k < (s.bytes a n).length) :
    (s.bytes a n)[k] = s.byte (a + k) := by simp [State.bytes]

theorem byte_storeBytes_outside (s : State) {a b : Nat} (us : List Byte) (h : b < a ∨ a + us.length ≤ b) :
    (s.storeBytes a us).byte b = s.byte b := Memory.read_writeList_outside s.mem us h

theorem byte_storeBytes_inside {s : State} {a k : Nat} {us : List Byte} (hs : s.mem.wf = true)
    (h : a + us.length ≤ Config.memSize) (hk : k < us.length) : (s.storeBytes a us).byte (a + k) = us[k] :=
  Memory.read_writeList_inside hs h hk

/-- The bounds check reports nothing exactly when every address of the range is in memory. -/
theorem firstBadAddress_eq_none {a n : Nat} : firstBadAddress a n = none ↔ ∀ k < n, a + k < Config.memSize := by
  unfold firstBadAddress
  split
  · simp_all
  · next hn =>
    split
    · next h => simp; intro k hk; omega
    · next h => simp; exact ⟨n - 1, by omega, by omega⟩

/-- What it reports is the smallest address of the range outside memory (R53). -/
theorem firstBadAddress_eq_some {a n b : Nat} :
    firstBadAddress a n = some b ↔
      (∃ k < n, b = a + k) ∧ Config.memSize ≤ b ∧ ∀ k < n, Config.memSize ≤ a + k → b ≤ a + k := by
  unfold firstBadAddress
  split
  · simp_all
  · next hn =>
    split
    · next h => simp; intro k hk hb; omega
    · next h =>
      simp only [Option.some.injEq]
      constructor
      · rintro rfl
        exact ⟨⟨max a Config.memSize - a, by omega, by omega⟩, by omega, fun k _ h => by omega⟩
      · rintro ⟨⟨k, hk, rfl⟩, h1, h2⟩
        by_cases ha : Config.memSize ≤ a
        · have := h2 0 (by omega) (by omega); omega
        · have := h2 (Config.memSize - a) (by omega) (by omega); omega

/-- The fetch faults exactly from PC = 4095 up, and reports PC, or 4096 for PC = 4095 (R241). -/
theorem firstBadAddress_two {a : Nat} :
    firstBadAddress a 2 = if a + 1 < Config.memSize then none else some (max a Config.memSize) := by
  simp [firstBadAddress]

/-- An I-relative instruction ends in its effect or in its fault, never otherwise. -/
theorem checkedAccess_cases (rg : Range) (i : Instr) (s t : State) :
    (firstBadAddress rg.first rg.count = none ∧ checkedAccess rg i s t = .next t) ∨
    (∃ a, firstBadAddress rg.first rg.count = some a ∧
      checkedAccess rg i s t = .next { s with halt := some (.dataAddress a s.pc (encode i)) }) := by
  unfold checkedAccess Range.fault
  split
  · next a h => exact .inr ⟨a, h, rfl⟩
  · next h => exact .inl ⟨h, rfl⟩

theorem checkedAccess_of_none {rg : Range} (i : Instr) (s t : State)
    (h : firstBadAddress rg.first rg.count = none) : checkedAccess rg i s t = .next t := by
  simp only [checkedAccess, Range.fault, h]

theorem checkedAccess_of_some {rg : Range} {a : Nat} (i : Instr) (s t : State)
    (h : firstBadAddress rg.first rg.count = some a) :
    checkedAccess rg i s t = .next { s with halt := some (.dataAddress a s.pc (encode i)) } := by
  simp only [checkedAccess, Range.fault, h, raise]

/-! ### Stack -/

theorem push_eq_none {s : State} {t : Word} : s.push t = none ↔ s.sp.val = 16 := by
  unfold State.push; split
  · simp; omega
  · simp; omega

/-- A push with room stores at the old SP and raises SP by one. -/
theorem push_of_lt {s : State} (t : Word) (h : s.sp.val < 16) :
    s.push t = some { s with stack := s.stack.set s.sp.val t, sp := ⟨s.sp.val + 1, Nat.succ_lt_succ h⟩ } := by
  simp [State.push, h]

theorem pop_eq_none {s : State} : s.pop = none ↔ s.sp = 0 := by
  unfold State.pop; split
  · next h => simp only [h, true_iff]; rfl
  · next k h hs => simp [hs, Fin.ext_iff]

/-- A pop reads the entry below SP, lowers SP by one and leaves the stack as it is. -/
theorem pop_of_pos {s : State} {k : Nat} (hk : k < 16) (h : s.sp.val = k + 1) :
    s.pop = some (s.stackEntry ⟨k, hk⟩, { s with sp := ⟨k, by omega⟩ }) := by
  unfold State.pop; split
  · next h0 => rw [h0] at h; simp at h
  · next j hj hs =>
    rw [hs] at h; simp at h; subst h; rfl

/-! ### Display -/

theorem cellOf_flipCell (d : Vector (BitVec 64) 32) (c c' : Fin 64) (r r' : Fin 32) :
    cellOf (flipCell d c r) c' r' = (cellOf d c' r' ^^ decide (c' = c ∧ r' = r)) := by
  simp only [cellOf, flipCell, Fin.getElem_fin, Vector.getElem_set]
  by_cases hr : r' = r
  · subst hr
    by_cases hc : c' = c
    · subst hc; simp
    · have : c'.val ≠ c.val := fun h => hc (Fin.ext h)
      simp [hc, this]
  · have : r.val ≠ r'.val := fun h => hr (Fin.ext h.symm)
    simp [hr, this]

@[simp] theorem cellOf_clearDisplay (c : Fin 64) (r : Fin 32) : cellOf clearDisplay c r = false := by
  simp [cellOf, clearDisplay]

/-- One sprite bit changes its own cell by XOR and no other, and raises the collision bit exactly when both the
bit and the cell are 1. -/
theorem drawBit_spec (bit : Bool) (c c' : Fin 64) (r r' : Fin 32) (cv : Canvas) :
    cellOf (drawBit bit c r cv).cells c' r' = (cellOf cv.cells c' r' ^^ (bit && decide (c' = c ∧ r' = r))) ∧
    (drawBit bit c r cv).hit = (cv.hit || (bit && cellOf cv.cells c r)) := by
  refine ⟨?_, rfl⟩
  cases bit
  · simp [drawBit]
  · simp [drawBit, cellOf_flipCell]

/-! ### Keys -/

/-- What a key wait finds: nothing when no key is held, else the lowest held key. -/
theorem lowestSetBit_eq_some {m : Word} {k : Reg} :
    lowestSetBit m = some k ↔ m.getLsbD k.val = true ∧ ∀ j : Reg, j < k → m.getLsbD j.val = false := by
  unfold lowestSetBit
  rw [List.find?_eq_some_iff_getElem]
  constructor
  · rintro ⟨hk, i, hi, hik, hj⟩
    refine ⟨hk, fun j hjk => ?_⟩
    have h1 : i = k.val := by simpa [Fin.ext_iff] using hik
    have := hj j.val (by rw [h1]; exact hjk)
    simpa using this
  · rintro ⟨hk, hj⟩
    refine ⟨hk, k.val, by simp, by simp, fun j hjk => ?_⟩
    simpa using hj ⟨j, by omega⟩ (by simpa [Fin.lt_def] using hjk)

theorem lowestSetBit_eq_none {m : Word} : lowestSetBit m = none ↔ m = 0 := by
  unfold lowestSetBit
  rw [List.find?_eq_none]
  constructor
  · intro h
    refine BitVec.eq_of_getLsbD_eq fun j hj => ?_
    simpa using h ⟨j, hj⟩ (List.mem_finRange _)
  · rintro rfl; simp

end Sys2Proof.Machine
end

