-- ==== Sys2Proof/Laws/Frame.lean ====
section
/-! SUPPORT. How each named update stays inside a footprint: a frame is read off the updates an instruction makes,
one lemma per update. -/

namespace Sys2Proof.Machine
namespace Unchanged

variable {w : Footprint} {s t : State}

/-- Nothing changed at all. -/
theorem refl (w : Footprint) (s : State) : Unchanged w s s where
  regs _ _ := rfl
  mem _ _ := rfl
  i _ := rfl
  stack _ := ⟨rfl, fun _ => rfl⟩
  dt _ := rfl
  st _ := rfl
  display _ _ _ := rfl
  awaitingKey _ := rfl
  halt _ := rfl
  keyboard := rfl
  host := ⟨rfl, rfl, rfl⟩

/-- A state that differs from t in V and memory only, and there inside the footprint, is in the frame with t. -/
theorem of_regs_mem (h : Unchanged w s t) {t' : State} (hr : ∀ r, r ∉ w.regs → t'.reg r = s.reg r)
    (hm : ∀ a, a ∉ w.mem → t'.byte a = s.byte a)
    (hrest : t' = { t with v := t'.v, mem := t'.mem }) : Unchanged w s t' where
  regs := hr
  mem := hm
  i e := by rw [hrest]; exact h.i e
  stack e := by rw [hrest]; exact h.stack e
  dt e := by rw [hrest]; exact h.dt e
  st e := by rw [hrest]; exact h.st e
  display e := by rw [hrest]; exact h.display e
  awaitingKey e := by rw [hrest]; exact h.awaitingKey e
  halt e := by rw [hrest]; exact h.halt e
  keyboard := by rw [hrest]; exact h.keyboard
  host := by rw [hrest]; exact h.host

/-- A new PC is outside every frame. -/
theorem jump (h : Unchanged w s t) (p : Word) : Unchanged w s (t.jump p) := { h with }

theorem advance (h : Unchanged w s t) : Unchanged w s t.advance := h.jump _

theorem skipIf (h : Unchanged w s t) (b : Bool) : Unchanged w s (t.skipIf b) := h.jump _

theorem setReg (h : Unchanged w s t) {r : Reg} (hr : r ∈ w.regs) (u : Byte) : Unchanged w s (t.setReg r u) := by
  refine h.of_regs_mem (fun q hq => ?_) h.mem rfl
  rw [reg_setReg_other t u (fun e => hq (by rw [e]; exact hr))]
  exact h.regs q hq

theorem setResultAndFlag (h : Unchanged w s t) {x : Reg} (hx : x ∈ w.regs) (hf : vf ∈ w.regs) (u f : Byte) :
    Unchanged w s (t.setResultAndFlag x u f) := (h.setReg hx u).setReg hf f

theorem loadRegsUpTo (h : Unchanged w s t) {x : Reg} (hx : ∀ r ≤ x, r ∈ w.regs) (a : Nat) :
    Unchanged w s (t.loadRegsUpTo x a) := by
  refine h.of_regs_mem (fun q hq => ?_) h.mem rfl
  rw [reg_loadRegsUpTo, if_neg fun e => hq (hx q e)]
  exact h.regs q hq

theorem storeBytes (h : Unchanged w s t) {a : Nat} {us : List Byte} (hm : ∀ k < us.length, a + k ∈ w.mem) :
    Unchanged w s (t.storeBytes a us) := by
  refine h.of_regs_mem h.regs (fun b hb => ?_) rfl
  rw [byte_storeBytes_outside t us]
  · exact h.mem b hb
  · by_contra hc
    exact hb (by simpa [show a + (b - a) = b by omega] using hm (b - a) (by omega))

theorem setI (h : Unchanged w s t) (hw : w.i = true) (u : Word) : Unchanged w s { t with i := u } :=
  { h with i := fun e => absurd e (by simp [hw]) }

theorem setStack (h : Unchanged w s t) (hw : w.stack = true) (k : Vector Word 16) (p : Fin 17) :
    Unchanged w s { t with stack := k, sp := p } :=
  { h with stack := fun e => absurd e (by simp [hw]) }

theorem setDt (h : Unchanged w s t) (hw : w.dt = true) (u : Byte) : Unchanged w s { t with dt := u } :=
  { h with dt := fun e => absurd e (by simp [hw]) }

theorem setSt (h : Unchanged w s t) (hw : w.st = true) (u : Byte) : Unchanged w s { t with st := u } :=
  { h with st := fun e => absurd e (by simp [hw]) }

theorem setDisplay (h : Unchanged w s t) (hw : w.display = true) (d : Vector (BitVec 64) 32) :
    Unchanged w s { t with display := d } :=
  { h with display := fun e => absurd e (by simp [hw]) }

theorem setAwaitingKey (h : Unchanged w s t) (hw : w.awaitingKey = true) (r : Option Reg) :
    Unchanged w s { t with awaitingKey := r } :=
  { h with awaitingKey := fun e => absurd e (by simp [hw]) }

theorem setHalt (h : Unchanged w s t) (hw : w.halt = true) (f : Option Fault) :
    Unchanged w s { t with halt := f } :=
  { h with halt := fun e => absurd e (by simp [hw]) }

end Unchanged

/-- The addresses of a range, as a membership. -/
theorem mem_addresses {rg : Range} {a : Nat} : a ∈ rg.addresses ↔ ∃ k < rg.count, a = rg.first + k := by
  simp [Range.addresses, eq_comm]

/-- The k-th address of a range is one of its addresses. -/
theorem first_add_mem_addresses {rg : Range} {k : Nat} (h : k < rg.count) : rg.first + k ∈ rg.addresses :=
  mem_addresses.2 ⟨k, h, rfl⟩

end Sys2Proof.Machine
end

