-- ==== Sys2Proof/Laws/PerInstr.lean ====
section
/-! SUPPORT. Laws proved per instruction.

EncodingRow: the word of a well-formed instruction satisfies `mask` and `match` of its row of R83's map. -/

namespace Sys2Proof.Laws.EncodingRow

/-- The encoding lies in the instruction's own row. -/
def Statement (i : Instr) : Prop := i.wellFormed = true → rowMatches (encode i) i.row = true

theorem rowMatches_family (f : Nibble) (a : Addr12) :
    rowMatches (wordNNN f a) (maskFamily, (f ++ 0#12 : BitVec (4 + 12))) = true := by
  have h : ((f ++ a : BitVec (4 + 12)) &&& (0xF#4 ++ 0#12)) = f ++ 0#12 := by
    rw [BitVec.and_append, BitVec.and_zero, show 0xF#4 = BitVec.allOnes 4 from rfl, BitVec.and_allOnes]
  exact beq_iff_eq.2 h

theorem rowMatches_familyXNN (f : Nibble) (x : Reg) (b : Byte) :
    rowMatches (wordXNN f x b) (maskFamily, (f ++ 0#12 : BitVec (4 + 12))) = true := by
  rw [← wordNNN_fields (wordXNN f x b), familyOf_wordXNN]
  exact rowMatches_family f _

theorem rowMatches_familyXYN (f : Nibble) (x y : Reg) (n : Nibble) :
    rowMatches (wordXYN f x y n) (maskFamily, (f ++ 0#12 : BitVec (4 + 12))) = true := by
  rw [← wordNNN_fields (wordXYN f x y n), familyOf_wordXYN]
  exact rowMatches_family f _

theorem rowMatches_byte (f : Nibble) (x : Reg) (b : Byte) :
    rowMatches (wordXNN f x b) (maskByte, (f ++ 0#4 ++ b : BitVec (4 + 4 + 8))) = true := by
  have h : ((f ++ regBits x ++ b : BitVec (4 + 4 + 8)) &&& (0xF#4 ++ 0#4 ++ 0xFF#8)) =
      f ++ 0#4 ++ b := by
    rw [BitVec.and_append, BitVec.and_append, BitVec.and_zero, show 0xF#4 = BitVec.allOnes 4 from rfl,
      show 0xFF#8 = BitVec.allOnes 8 from rfl, BitVec.and_allOnes, BitVec.and_allOnes]
  exact beq_iff_eq.2 h

theorem rowMatches_nibble (f : Nibble) (x y : Reg) (n : Nibble) :
    rowMatches (wordXYN f x y n) (maskNibble, (f ++ 0#8 ++ n : BitVec (4 + 8 + 4))) = true := by
  have h : ((f ++ regBits x ++ regBits y ++ n : BitVec (4 + 4 + 4 + 4)) &&&
      (0xF#4 ++ 0#4 ++ 0#4 ++ 0xF#4)) =
      f ++ 0#4 ++ 0#4 ++ n := by
    rw [BitVec.and_append, BitVec.and_append, BitVec.and_append, BitVec.and_zero, BitVec.and_zero,
      show 0xF#4 = BitVec.allOnes 4 from rfl, BitVec.and_allOnes, BitVec.and_allOnes]
  have e : (f ++ 0#4 ++ 0#4 ++ n : BitVec (4 + 4 + 4 + 4)) = f ++ 0#8 ++ n :=
    congrArg (fun z : BitVec 12 => (z ++ n : BitVec (12 + 4))) BitVec.append_assoc
  exact beq_iff_eq.2 (h.trans e)

theorem cls : Statement (.cls) := fun _ => rfl
theorem ret : Statement (.ret) := fun _ => rfl
theorem sys (nnn : Addr12) : Statement (.sys nnn) :=
  fun _ => rowMatches_family 0x0 nnn
theorem jp (nnn : Addr12) : Statement (.jp nnn) :=
  fun _ => rowMatches_family 0x1 nnn
theorem call (nnn : Addr12) : Statement (.call nnn) :=
  fun _ => rowMatches_family 0x2 nnn
theorem seByte (x : Reg) (nn : Byte) : Statement (.seByte x nn) :=
  fun _ => rowMatches_familyXNN 0x3 x nn
theorem sneByte (x : Reg) (nn : Byte) : Statement (.sneByte x nn) :=
  fun _ => rowMatches_familyXNN 0x4 x nn
theorem sne5Reg (x y : Reg) (n : Nibble) : Statement (.sne5Reg x y n) :=
  fun _ => rowMatches_familyXYN 0x5 x y n
theorem ldByte (x : Reg) (nn : Byte) : Statement (.ldByte x nn) :=
  fun _ => rowMatches_familyXNN 0x6 x nn
theorem addByte (x : Reg) (nn : Byte) : Statement (.addByte x nn) :=
  fun _ => rowMatches_familyXNN 0x7 x nn
theorem ldReg (x y : Reg) : Statement (.ldReg x y) :=
  fun _ => rowMatches_nibble 0x8 x y 0x0
theorem orReg (x y : Reg) : Statement (.orReg x y) :=
  fun _ => rowMatches_nibble 0x8 x y 0x1
theorem andReg (x y : Reg) : Statement (.andReg x y) :=
  fun _ => rowMatches_nibble 0x8 x y 0x2
theorem xorReg (x y : Reg) : Statement (.xorReg x y) :=
  fun _ => rowMatches_nibble 0x8 x y 0x3
theorem addReg (x y : Reg) : Statement (.addReg x y) :=
  fun _ => rowMatches_nibble 0x8 x y 0x4
theorem sub (x y : Reg) : Statement (.sub x y) :=
  fun _ => rowMatches_nibble 0x8 x y 0x5
theorem shr (x y : Reg) : Statement (.shr x y) :=
  fun _ => rowMatches_nibble 0x8 x y 0x6
theorem subn (x y : Reg) : Statement (.subn x y) :=
  fun _ => rowMatches_nibble 0x8 x y 0x7
theorem shl (x y : Reg) : Statement (.shl x y) :=
  fun _ => rowMatches_nibble 0x8 x y 0xE
theorem nop8 (x y : Reg) (n : Nibble) : Statement (.nop8 x y n) :=
  fun _ => rowMatches_familyXYN 0x8 x y n
theorem sneReg (x y : Reg) (n : Nibble) : Statement (.sneReg x y n) :=
  fun _ => rowMatches_familyXYN 0x9 x y n
theorem ldI (nnn : Addr12) : Statement (.ldI nnn) :=
  fun _ => rowMatches_family 0xA nnn
theorem jpV0 (nnn : Addr12) : Statement (.jpV0 nnn) :=
  fun _ => rowMatches_family 0xB nnn
theorem rnd (x : Reg) (nn : Byte) : Statement (.rnd x nn) :=
  fun _ => rowMatches_familyXNN 0xC x nn
theorem drw (x y : Reg) (n : Nibble) : Statement (.drw x y n) :=
  fun _ => rowMatches_familyXYN 0xD x y n
theorem skp (x : Reg) : Statement (.skp x) :=
  fun _ => rowMatches_byte 0xE x 0x9E
theorem sknp (x : Reg) : Statement (.sknp x) :=
  fun _ => rowMatches_byte 0xE x 0xA1
theorem nopE (x : Reg) (nn : Byte) : Statement (.nopE x nn) :=
  fun _ => rowMatches_familyXNN 0xE x nn
theorem ldVxDt (x : Reg) : Statement (.ldVxDt x) :=
  fun _ => rowMatches_byte 0xF x 0x07
theorem ldVxK (x : Reg) : Statement (.ldVxK x) :=
  fun _ => rowMatches_byte 0xF x 0x0A
theorem ldDtVx (x : Reg) : Statement (.ldDtVx x) :=
  fun _ => rowMatches_byte 0xF x 0x15
theorem ldStVx (x : Reg) : Statement (.ldStVx x) :=
  fun _ => rowMatches_byte 0xF x 0x18
theorem addI (x : Reg) : Statement (.addI x) :=
  fun _ => rowMatches_byte 0xF x 0x1E
theorem ldF (x : Reg) : Statement (.ldF x) :=
  fun _ => rowMatches_byte 0xF x 0x29
theorem ldB (x : Reg) : Statement (.ldB x) :=
  fun _ => rowMatches_byte 0xF x 0x33
theorem ldMemVx (x : Reg) : Statement (.ldMemVx x) :=
  fun _ => rowMatches_byte 0xF x 0x55
theorem ldVxMem (x : Reg) : Statement (.ldVxMem x) :=
  fun _ => rowMatches_byte 0xF x 0x65
theorem nopF (x : Reg) (nn : Byte) : Statement (.nopF x nn) :=
  fun _ => rowMatches_familyXNN 0xF x nn

end Sys2Proof.Laws.EncodingRow
end

