-- ==== Sys2Proof/Laws/Step.lean ====
section
/-! SUPPORT. What a step can do, said once: one lemma per case of the tick, and the placing of a word. -/

namespace Sys2Proof.Machine

/-- A halted machine's tick changes nothing. -/
theorem tick_of_halted {s : State} {f : Fault} (h : s.halt = some f) (k : Word) (b : Byte) :
    tick k b s = .next s := by simp only [tick, h]

/-- A waiting machine's tick is the key-wait step. -/
theorem tick_of_waiting {s : State} {r : Reg} (h : s.halt = none) (hw : s.awaitingKey = some r) (k : Word)
    (b : Byte) : tick k b s = .next ((s.sample k b).keyWaitStep r) := by simp only [tick, h, hw]

/-- A running machine's tick executes one instruction. -/
theorem tick_of_running {s : State} (h : s.halt = none) (hw : s.awaitingKey = none) (k : Word) (b : Byte) :
    tick k b s = execute (s.sample k b) := by simp only [tick, h, hw]

/-- A fetch inside memory runs the instruction of the word at PC. -/
theorem execute_of_fetchable {s : State} (h : s.pc.toNat + 1 < Config.memSize) :
    execute s = exec (decode s.fetchWord) s := by
  simp only [execute, State.fetchFault, firstBadAddress_two, if_pos h]

/-- A fetch outside memory halts. -/
theorem execute_of_unfetchable {s : State} (h : ¬ s.pc.toNat + 1 < Config.memSize) :
    execute s = .next { s with halt := some (.fetchAddress (max s.pc.toNat Config.memSize) s.pc) } := by
  simp only [execute, State.fetchFault, firstBadAddress_two, if_neg h, raise]

/-- The key-wait step with a key held. -/
theorem keyWaitStep_of_some {s : State} {r k : Reg} (h : lowestSetBit s.keyboard = some k) :
    s.keyWaitStep r = { s.setReg r (keyByte k) with awaitingKey := none } := by
  simp only [State.keyWaitStep, h]

/-- The key-wait step with no key held. -/
theorem keyWaitStep_of_none {s : State} {r : Reg} (h : lowestSetBit s.keyboard = none) :
    s.keyWaitStep r = s := by
  simp only [State.keyWaitStep, h]

/-- Machine creation from an image that fits. -/
theorem create_of_le {g : Vector Byte Config.glyphBytes} {image : List Byte} (h : image.length ≤ Config.progMax) :
    State.create g (some image) = .ok { State.reset with mem := bootMemory g image } := by
  simp only [State.create, if_pos h]

/-- Machine creation from an image that does not fit. -/
theorem create_of_gt {g : Vector Byte Config.glyphBytes} {image : List Byte} (h : Config.progMax < image.length) :
    State.create g (some image) = .error (.loadError (some image.length)) := by
  simp only [State.create, if_neg (Nat.not_le.2 h)]

/-- A created machine takes over the host's schedule, and nothing else of the old one. -/
theorem hostReset_of_ok {image : Option (List Byte)} {s t : State} (h : State.create defaultGlyphs image = .ok t) :
    hostReset image s = .next { t with inputs := s.inputs, eventNo := s.eventNo } := by
  simp only [hostReset, h]

/-- Without a created machine the run ends. -/
theorem hostReset_of_error {image : Option (List Byte)} {s : State} {f : Fault}
    (h : State.create defaultGlyphs image = .error f) : hostReset image s = .fault f := by
  simp only [hostReset, h]

/-- Where a word is placed can be fetched from. -/
theorem fetchablePc_lt (s : State) : s.fetchablePc.toNat + 1 < Config.memSize := by
  unfold State.fetchablePc; split
  · assumption
  · decide

/-- The word placed is the word fetched. -/
theorem fetchWord_placeWord {s : State} (hs : s.mem.wf = true) (w : Word) : (s.placeWord w).fetchWord = w := by
  have hb := fetchablePc_lt s
  have hl : (bytesOfWord w).length = 2 := rfl
  have h0 := byte_storeBytes_inside (a := s.fetchablePc.toNat) (k := 0) (us := bytesOfWord w) hs
    (by rw [hl]; omega) (by rw [hl]; omega)
  have h1 := byte_storeBytes_inside (a := s.fetchablePc.toNat) (k := 1) (us := bytesOfWord w) hs
    (by rw [hl]; omega) (by rw [hl]; omega)
  have e0 : (s.placeWord w).byte s.fetchablePc.toNat = hiByte w := h0
  have e1 : (s.placeWord w).byte (s.fetchablePc.toNat + 1) = loByte w := h1
  have hp : (s.placeWord w).pc = s.fetchablePc := rfl
  rw [State.fetchWord, hp, e0, e1, wordOfBytes_hi_lo]

/-- The step after placing a word runs exactly its instruction, on the state it was placed in. -/
theorem step_placeWord {s : State} (hs : s.mem.wf = true) (w : Word) :
    step (s.placeWord w) = exec (decode w) { s.placeWord w with inputs := s.inputs } := by
  have h1 : step (s.placeWord w) = tick s.keyboard s.rnd { s.placeWord w with inputs := s.inputs } := rfl
  have h2 : ({ s.placeWord w with inputs := s.inputs } : State).sample s.keyboard s.rnd =
      { s.placeWord w with inputs := s.inputs } := rfl
  have h3 : ({ s.placeWord w with inputs := s.inputs } : State).fetchWord = w := fetchWord_placeWord hs w
  rw [h1, tick_of_running (by rfl) (by rfl), h2, execute_of_fetchable (fetchablePc_lt s), h3]

/-- What one step can do (R100, R253): the host's next event happens to the state it was taken from. -/
theorem step_cases (s : State) :
    (∃ k b, s.nextEvent = .tick k b ∧ step s = tick k b s.takeEvent) ∨
    (s.nextEvent = .timerTick ∧ step s = .next s.takeEvent.timerTick) ∨
    (∃ img, s.nextEvent = .reset img ∧ step s = hostReset img s.takeEvent) := by
  unfold step
  cases h : s.nextEvent with
  | tick k b => exact .inl ⟨k, b, rfl, rfl⟩
  | timerTick => exact .inr (.inl ⟨rfl, rfl⟩)
  | reset img => exact .inr (.inr ⟨img, rfl, rfl⟩)

end Sys2Proof.Machine
end

