-- ==== Sys2Proof/Tests/Slice0.lean ====
section
/-! SUPPORT. Tests and witnesses. Every expected value is taken from the spec: the encodings from 30_encoding.md R71
to R83, the results from 95_test_vectors.md (the vector is named in each comment). A witness shows a state and operands
that meet the hypotheses of a statement. -/

namespace Sys2Proof.Tests
open Sys2Proof Sys2Proof.Machine

/-! ### Helpers -/

/-- The outcome is a next state with the property. -/
def nextHas (o : Host.Outcome State Fault Refusal) (p : State → Bool) : Bool :=
  match o with
  | .next t => p t
  | .fault _ => false
  | .refused _ => false

/-- Reset with registers set. -/
def withRegs (rs : List (Reg × Byte)) : State := rs.foldl (fun s r => s.setReg r.1 r.2) State.reset

/-- One tick of s on a word placed at its PC. -/
def run (s : State) (w : Nat) (p : State → Bool) : Bool := nextHas (step (s.withFetchWord 16 w)) p

/-- Reset with some registers, I = 0x300 and bytes there. -/
def withData (rs : List (Reg × Byte)) (us : List Byte) : State :=
  ({ withRegs rs with i := 0x300 } : State).storeBytes 0x300 us

/-- The number of cells that are set in a row. -/
def rowIs (s : State) (r : Fin 32) (cs : List (Fin 64)) : Bool :=
  (List.finRange 64).all fun c => s.cell c r == cs.contains c

/-! ### Well-formedness: each check refuses an ill-formed term (R77 to R80) -/

theorem test_wf_sys_is_not_cls : Instr.wellFormed (.sys 0x0E0) = false := by decide
theorem test_wf_sys_is_not_ret : Instr.wellFormed (.sys 0x0EE) = false := by decide
theorem test_wf_nop8_is_no_operation_of_family_8 :
    ∀ n ∈ [(0x0 : Nibble), 0x1, 0x2, 0x3, 0x4, 0x5, 0x6, 0x7, 0xE], Instr.wellFormed (.nop8 1 2 n) = false := by decide
theorem test_wf_nopE_is_no_key_skip :
    ∀ nn ∈ [(0x9E : Byte), 0xA1], Instr.wellFormed (.nopE 1 nn) = false := by decide
theorem test_wf_nopF_is_no_operation_of_family_F :
    ∀ nn ∈ [(0x07 : Byte), 0x0A, 0x15, 0x18, 0x1E, 0x29, 0x33, 0x55, 0x65],
      Instr.wellFormed (.nopF 1 nn) = false := by decide
theorem test_wf_accepts : ∀ i ∈ [Instr.cls, .sys 0x1E0, .nop8 1 2 0xF, .nopE 1 0x9F, .nopF 1 0x00],
    i.wellFormed = true := by decide

/-! ### Decoding: every constructor, from its word written bit by bit (R71, R74, R83) -/

theorem test_decode_control : decode 0b0000000011100000 = .cls ∧ decode 0b0000000011101110 = .ret ∧
    decode 0b0000000111100000 = .sys 0x1E0 ∧ decode 0b0001101010111100 = .jp 0xABC ∧
    decode 0b0010001100000000 = .call 0x300 ∧ decode 0b1011001100000001 = .jpV0 0x301 := by decide

theorem test_decode_skips : decode 0b0011001100010000 = .seByte 0x3 0x10 ∧
    decode 0b0100101000000001 = .sneByte 0xA 0x01 ∧ decode 0b0101000100100011 = .sne5Reg 0x1 0x2 0x3 ∧
    decode 0b1001000100100000 = .sneReg 0x1 0x2 0x0 := by decide

theorem test_decode_bytes : decode 0b0110101011111111 = .ldByte 0xA 0xFF ∧
    decode 0b0111000100000010 = .addByte 0x1 0x02 ∧ decode 0b1100001100001111 = .rnd 0x3 0x0F := by decide

theorem test_decode_family8 : decode 0b1000101010110000 = .ldReg 0xA 0xB ∧ decode 0b1000101010110001 = .orReg 0xA 0xB ∧
    decode 0b1000101010110010 = .andReg 0xA 0xB ∧ decode 0b1000101010110011 = .xorReg 0xA 0xB ∧
    decode 0b1000101010110100 = .addReg 0xA 0xB ∧ decode 0b1000101010110101 = .sub 0xA 0xB ∧
    decode 0b1000101010110110 = .shr 0xA 0xB ∧ decode 0b1000101010110111 = .subn 0xA 0xB ∧
    decode 0b1000101010111110 = .shl 0xA 0xB ∧ decode 0b1000101010111101 = .nop8 0xA 0xB 0xD := by decide

theorem test_decode_index : decode 0b1010010111000011 = .ldI 0x5C3 ∧ decode 0b1101000100101111 = .drw 0x1 0x2 0xF := by
  decide

theorem test_decode_familyE : decode 0b1110000010011110 = .skp 0x0 ∧ decode 0b1110001110100001 = .sknp 0x3 ∧
    decode 0b1110000110011111 = .nopE 0x1 0x9F := by decide

theorem test_decode_familyF : decode 0b1111000000000111 = .ldVxDt 0x0 ∧ decode 0b1111001100001010 = .ldVxK 0x3 ∧
    decode 0b1111001100010101 = .ldDtVx 0x3 ∧ decode 0b1111001100011000 = .ldStVx 0x3 ∧
    decode 0b1111000100011110 = .addI 0x1 ∧ decode 0b1111000100101001 = .ldF 0x1 ∧
    decode 0b1111000000110011 = .ldB 0x0 ∧ decode 0b1111001001010101 = .ldMemVx 0x2 ∧
    decode 0b1111111101100101 = .ldVxMem 0xF ∧ decode 0b1111111111111111 = .nopF 0xF 0xFF := by decide

/-- L2.1 F3: the fields of 0x8AB4; big-endian bytes (R55). -/
theorem test_decode_bytes_are_big_endian : decodeBytes [0x8A, 0xB4, 0x00] = .ok (.addReg 0xA 0xB, [0x00]) := by decide
theorem test_decode_rejects_one_byte : decodeBytes [0x8A] = .error .truncated := by decide
theorem test_decodeTableWord : decodeTableWord 16 0x8AB4 = some (.addReg 0xA 0xB) ∧ decodeTableWord 16 0x10000 = none := by
  decide

/-! ### Control flow (L2.7) -/

/-- J1. -/
theorem test_jp : run State.reset 0x1ABC (fun t => t.pc == 0xABC) = true := by decide
/-- J2. -/
theorem test_call : run State.reset 0x2300 (fun t => t.pc == 0x300 && t.sp == 1 && t.stackEntry 0 == 0x202) = true := by
  decide
/-- J5. -/
theorem test_call_overflow : run { State.reset with sp := 16 } 0x2300 (fun t =>
    t.halt == some (.stackOverflow 0x200 0x2300) && t.pc == 0x200 && t.sp == 16) = true := by decide
/-- J3. -/
theorem test_ret : run { State.reset with pc := 0x300, sp := 1, stack := State.reset.stack.set 0 0x202 } 0x00EE (fun t =>
    t.pc == 0x202 && t.sp == 0 && t.stackEntry 0 == 0x202) = true := by decide
/-- J4. -/
theorem test_ret_underflow : run State.reset 0x00EE (fun t =>
    t.halt == some (.stackUnderflow 0x200 0x00EE) && t.pc == 0x200 && t.sp == 0) = true := by decide
/-- 0x0EEE is SYS (D7). -/
theorem test_sys : run State.reset 0x0EEE (fun t => t.pc == 0x202 && t.halt == none) = true := by decide
/-- J6. -/
theorem test_seByte_taken : run (withRegs [(3, 0x10)]) 0x3310 (fun t => t.pc == 0x204) = true := by decide
/-- J7. -/
theorem test_seByte_not : run (withRegs [(3, 0x11)]) 0x3310 (fun t => t.pc == 0x202) = true := by decide
/-- J8. -/
theorem test_sneByte_not : run (withRegs [(3, 0x10)]) 0x4310 (fun t => t.pc == 0x202) = true := by decide
/-- J9. -/
theorem test_sneByte_taken : run (withRegs [(3, 0x11)]) 0x4310 (fun t => t.pc == 0x204) = true := by decide
/-- J10: 5XY0 skips on inequality (C2). -/
theorem test_sne5Reg_taken : run (withRegs [(1, 1), (2, 2)]) 0x5120 (fun t => t.pc == 0x204) = true := by decide
/-- J11. -/
theorem test_sne5Reg_not : run (withRegs [(1, 7), (2, 7)]) 0x5120 (fun t => t.pc == 0x202) = true := by decide
/-- J12. -/
theorem test_sneReg_taken : run (withRegs [(1, 1), (2, 2)]) 0x9120 (fun t => t.pc == 0x204) = true := by decide
/-- J14. -/
theorem test_jpV0 : run (withRegs [(0, 4)]) 0xB300 (fun t => t.pc == 0x304) = true := by decide
/-- J15. -/
theorem test_jpV0_past_memory : run (withRegs [(0, 0xFF)]) 0xBFFF (fun t => t.pc == 0x10FE && t.halt == none) = true := by
  decide
/-- J17. -/
theorem test_fetch_fault : nextHas (step { State.reset with pc := 0xFFF, inputs := [.tick 0 0] }) (fun t =>
    t.halt == some (.fetchAddress 0x1000 0xFFF) && t.pc == 0xFFF) = true := by decide
/-- J16, second tick. -/
theorem test_fetch_fault_past_memory : nextHas (step { State.reset with pc := 0x1002, inputs := [.tick 0 0] }) (fun t =>
    t.halt == some (.fetchAddress 0x1002 0x1002)) = true := by decide
/-- J20: an odd PC. -/
theorem test_odd_pc : run { State.reset with pc := 0x201 } 0x6005 (fun t => t.reg 0 == 5 && t.pc == 0x203) = true := by
  decide
/-- J22. -/
theorem test_halted : nextHas (step { State.reset with
    halt := some (.stackUnderflow 0x200 0x00EE), inputs := [.tick 0xFFFF 1] }) (fun t =>
    t.pc == 0x200 && t.keyboard == 0) = true := by decide

/-! ### ALU (L2.2, L2.3, L2.4) -/

/-- A9. -/
theorem test_ldByte : run State.reset 0x6FAB (fun t => t.reg vf == 0xAB && t.pc == 0x202) = true := by decide
/-- A1. -/
theorem test_addByte : run (withRegs [(1, 0xFF), (15, 0x55)]) 0x7102 (fun t => t.reg 1 == 1 && t.reg vf == 0x55) = true := by
  decide
/-- A3. -/
theorem test_ldReg : run (withRegs [(2, 0x7A)]) 0x8120 (fun t => t.reg 1 == 0x7A && t.reg 2 == 0x7A) = true := by decide
/-- A5. -/
theorem test_orReg : run (withRegs [(1, 0xF0), (2, 0x0F), (15, 0x77)]) 0x8121 (fun t =>
    t.reg 1 == 0xFF && t.reg vf == 0x77) = true := by decide
/-- A6. -/
theorem test_andReg : run (withRegs [(1, 0xF0), (2, 0x3C)]) 0x8122 (fun t => t.reg 1 == 0x30) = true := by decide
/-- A7. -/
theorem test_xorReg : run (withRegs [(1, 0xF0), (2, 0x3C)]) 0x8123 (fun t => t.reg 1 == 0xCC) = true := by decide
/-- L1.2: sum exactly 255. -/
theorem test_addReg_255 : run (withRegs [(0, 0x80), (1, 0x7F)]) 0x8014 (fun t => t.reg 0 == 0xFF && t.reg vf == 0) = true := by
  decide
/-- B1. -/
theorem test_addReg_vf : run (withRegs [(1, 0x80), (15, 0x80)]) 0x8F14 (fun t => t.reg vf == 1) = true := by decide
/-- B5. -/
theorem test_sub_borrow : run (withRegs [(1, 3), (2, 5)]) 0x8125 (fun t => t.reg 1 == 0xFE && t.reg vf == 0) = true := by
  decide
/-- B6. -/
theorem test_sub_equal : run (withRegs [(1, 7), (2, 7)]) 0x8125 (fun t => t.reg 1 == 0 && t.reg vf == 1) = true := by decide
/-- B12. -/
theorem test_shr : run (withRegs [(1, 5), (2, 0xFF)]) 0x8126 (fun t => t.reg 1 == 2 && t.reg vf == 1) = true := by decide
/-- B15. -/
theorem test_shr_vf : run (withRegs [(15, 3)]) 0x8F06 (fun t => t.reg vf == 1) = true := by decide
/-- B9. -/
theorem test_subn : run (withRegs [(1, 3), (2, 5)]) 0x8127 (fun t => t.reg 1 == 2 && t.reg vf == 1) = true := by decide
/-- B10. -/
theorem test_subn_borrow : run (withRegs [(1, 5), (2, 3)]) 0x8127 (fun t => t.reg 1 == 0xFE && t.reg vf == 0) = true := by
  decide
/-- B16. -/
theorem test_shl : run (withRegs [(1, 0x81)]) 0x812E (fun t => t.reg 1 == 2 && t.reg vf == 1) = true := by decide
/-- B17. -/
theorem test_shl_no_bit : run (withRegs [(1, 0x7F)]) 0x812E (fun t => t.reg 1 == 0xFE && t.reg vf == 0) = true := by decide
/-- C4. -/
theorem test_nop8 : run (withRegs [(1, 0x11), (2, 0x12)]) 0x8128 (fun t =>
    t.pc == 0x202 && t.v == (withRegs [(1, 0x11), (2, 0x12)]).v) = true := by decide
/-- C1. -/
theorem test_rnd : run { State.reset with rnd := 0xAB } 0xC30F (fun t => t.reg 3 == 0x0B) = true := by decide

/-! ### Index and memory (L2.5) -/

/-- M1. -/
theorem test_ldI : run State.reset 0xAFFF (fun t => t.i == 0x0FFF) = true := by decide
/-- M2. -/
theorem test_addI : run { withRegs [(1, 1), (15, 7)] with i := 0x0FFF } 0xF11E (fun t =>
    t.i == 0x1000 && t.reg vf == 7) = true := by decide
/-- M3. -/
theorem test_addI_wraps : run { withRegs [(1, 2)] with i := 0xFFFF } 0xF11E (fun t => t.i == 0x0001) = true := by decide
/-- M6. -/
theorem test_ldF : run (withRegs [(1, 0xFF)]) 0xF129 (fun t => t.i == 0x04FB) = true := by decide
/-- L1.6. -/
theorem test_ldB : run (withData [(0, 0xFF)] [0xAA]) 0xF033 (fun t =>
    t.bytes 0x300 4 == [0xAA, 2, 5, 5] && t.i == 0x300) = true := by decide
/-- M11. -/
theorem test_ldB_fault : run { State.reset with i := 0xFFD } 0xF033 (fun t =>
    t.halt == some (.dataAddress 0x1000 0x200 0xF033) && t.pc == 0x200) = true := by decide
/-- M13. -/
theorem test_ldMemVx : run (withData [(0, 1), (1, 2), (2, 3)] []) 0xF255 (fun t =>
    t.bytes 0x300 4 == [1, 2, 3, 0] && t.i == 0x300) = true := by decide
/-- M14. -/
theorem test_ldMemVx_fault : run { withRegs [(0, 1), (1, 2)] with i := 0xFFE } 0xF255 (fun t =>
    t.halt == some (.dataAddress 0x1000 0x200 0xF255) && t.bytes 0xFFE 2 == [0, 0]) = true := by decide
/-- M17, with five bytes. -/
theorem test_ldVxMem : run (withData [(5, 0x55)] [9, 8, 7, 6, 5, 4]) 0xF465 (fun t =>
    t.regsUpTo 5 == [9, 8, 7, 6, 5, 0x55] && t.i == 0x300) = true := by decide
/-- M16. -/
theorem test_ldVxMem_fault : run { withRegs [(0, 0x77)] with i := 0x1000 } 0xF065 (fun t =>
    t.halt == some (.dataAddress 0x1000 0x200 0xF065) && t.reg 0 == 0x77) = true := by decide

/-! ### Display (L2.6) -/

/-- L1.3. -/
theorem test_cls : run { State.reset with display := Vector.replicate 32 0xFFFF } 0x00E0 (fun t =>
    t.display == Vector.replicate 32 0 && t.pc == 0x202) = true := by decide
/-- S3, the collision of S1 and the second sprite. -/
theorem test_drw_collision : run { withData [] [0xC0] with display := State.reset.display.set 0 1 } 0xD011 (fun t =>
    rowIs t 0 [1] && t.reg vf == 1) = true := by decide
/-- S4: wraparound in both directions. -/
theorem test_drw_wraps : run (withData [(0, 0x7E), (1, 0x3F)] [0xFF, 0xFF]) 0xD012 (fun t =>
    rowIs t 31 [62, 63, 0, 1, 2, 3, 4, 5] && rowIs t 0 [62, 63, 0, 1, 2, 3, 4, 5] && rowIs t 1 [] && t.reg vf == 0) = true := by
  decide
/-- S8. -/
theorem test_drw_fault : run { State.reset with i := 0xFFF } 0xD012 (fun t =>
    t.halt == some (.dataAddress 0x1000 0x200 0xD012) && t.display == State.reset.display) = true := by decide
/-- S10: glyph 0 at the top left. -/
theorem test_glyph0 : run State.reset 0xD015 (fun t =>
    rowIs t 0 [0, 1, 2, 3] && rowIs t 1 [0, 3] && rowIs t 4 [0, 1, 2, 3] && rowIs t 5 []) = true := by decide

/-! ### Keys and timers (L2.8) -/

/-- K1. -/
theorem test_skp : run { withRegs [(1, 3)] with keyboard := 0x0008 } 0xE19E (fun t => t.pc == 0x204) = true := by decide
/-- K4. -/
theorem test_skp_no_such_key : run { withRegs [(1, 0x10)] with keyboard := 0xFFFF } 0xE19E (fun t => t.pc == 0x202) = true := by
  decide
/-- K3. -/
theorem test_sknp : run (withRegs [(1, 3)]) 0xE1A1 (fun t => t.pc == 0x204) = true := by decide
/-- K5. -/
theorem test_sknp_no_such_key : run { withRegs [(1, 0x10)] with keyboard := 0xFFFF } 0xE1A1 (fun t =>
    t.pc == 0x204) = true := by decide
/-- K16. -/
theorem test_nopE : run State.reset 0xE19F (fun t => t.pc == 0x202) = true := by decide
/-- K17. -/
theorem test_nopF : run State.reset 0xF100 (fun t => t.pc == 0x202) = true := by decide
/-- K11. -/
theorem test_ldVxDt : run { State.reset with dt := 0x2A } 0xF307 (fun t => t.reg 3 == 0x2A) = true := by decide
/-- K9. -/
theorem test_ldDtVx : run (withRegs [(3, 0x3C)]) 0xF315 (fun t => t.dt == 0x3C && t.st == 0) = true := by decide
/-- K10. -/
theorem test_ldStVx : run (withRegs [(3, 5)]) 0xF318 (fun t => t.st == 5 && t.dt == 0 && t.soundOn) = true := by decide
/-- K6, first tick. -/
theorem test_ldVxK : run { State.reset with keyboard := 0x8000 } 0xFF0A (fun t =>
    t.awaitingKey == some 15 && t.pc == 0x202 && t.reg vf == 0) = true := by decide
/-- L1.7, tick 4. -/
theorem test_key_wait_resolves : nextHas (step { State.reset with
    pc := 0x202, awaitingKey := some 3, inputs := [.tick 0x0120 0] }) (fun t => t.reg 3 == 5 && t.awaitingKey == none && t.pc == 0x202) = true := by decide
/-- K8: the timers run during the wait. -/
theorem test_timerTick_in_wait : nextHas (step { State.reset with
    awaitingKey := some 2, dt := 3, inputs := [.timerTick] }) (fun t => t.dt == 2 && t.st == 0 && t.awaitingKey == some 2) = true := by decide
/-- K15. -/
theorem test_timerTick_halted : nextHas (step { State.reset with
    halt := some (.stackUnderflow 0x200 0x00EE), dt := 9, inputs := [.timerTick] }) (fun t => t.dt == 9) = true := by decide

/-! ### Reset (R270, R274) -/

/-- The conventional font's glyph F and the byte after the table. -/
theorem test_reset_glyphF : State.reset.bytes 75 6 = [0xF0, 0x80, 0xF0, 0x80, 0x80, 0x00] := by decide
/-- The reset event places an image and takes the old state away. -/
theorem test_reset_event : nextHas (step { withRegs [(1, 9)] with
    pc := 0x300, dt := 4, inputs := [.reset (some [0x60, 0x05])] }) (fun t =>
    t.pc == 0x200 && t.reg 1 == 0 && t.dt == 0 && t.bytes 0x1FF 4 == [0, 0x60, 0x05, 0]) = true := by decide

/-! ### Witnesses: the hypotheses of the statements can be met, clause by clause at the edges -/

/-- Reset with one tick queued. -/
def ticking : State := { State.reset with inputs := [.tick 0 0] }

theorem witness_DecodeOfEncodeIsIdentity : Instr.wellFormed (.nop8 15 0 15) = true := by decide
theorem witness_MostSpecificRowWins : (maskFamily, (0 : Word)) ∈ opcodeRows ∧
    rowMatches 0x00E0 (maskFamily, 0) = true ∧ (maskFamily, (0 : Word)) ≠ (decode 0x00E0).row := by decide
theorem witness_StepRunsDecodedInstruction : ∃ s : State, s.halt = none ∧ s.awaitingKey = none ∧
    s.nextEvent = .tick 0 0 ∧ s.pc.toNat + 1 = 4095 ∧
    decodeBytes [s.byte s.pc.toNat, s.byte (s.pc.toNat + 1)] = .ok (.sys 0, []) :=
  ⟨{ ticking with pc := 4094 }, by decide⟩
theorem witness_FetchOutsideMemoryHalts : ∃ s : State, s.halt = none ∧ s.awaitingKey = none ∧
    s.nextEvent = .tick 0 0 ∧ s.pc.toNat = 4095 := ⟨{ ticking with pc := 4095 }, by decide⟩
theorem witness_FetchOutsideMemoryHalts_past : ∃ s : State, s.halt = none ∧ s.awaitingKey = none ∧
    s.nextEvent = .tick 0 0 ∧ s.pc.toNat = 4096 := ⟨{ ticking with pc := 4096 }, by decide⟩
theorem witness_KeyboardIsSampledAtEveryTick : ∃ s : State, s.halt = none ∧ s.nextEvent = .tick 0xFFFF 1 :=
  ⟨{ State.reset with inputs := [.tick 0xFFFF 1] }, by decide⟩
theorem witness_HaltedMachine_tick : ∃ (s : State) (f : Fault), s.halt = some f ∧ s.nextEvent = .tick 0 0 :=
  ⟨{ ticking with halt := some (.stackUnderflow 0x200 0x00EE) }, .stackUnderflow 0x200 0x00EE, by decide⟩
theorem witness_HaltedMachine_timerTick : ∃ (s : State) (f : Fault), s.halt = some f ∧ s.nextEvent = .timerTick :=
  ⟨{ State.reset with halt := some (.stackUnderflow 0x200 0x00EE), inputs := [.timerTick] },
    .stackUnderflow 0x200 0x00EE, by decide⟩
theorem witness_HaltedMachine_reset : ∃ (s : State) (f : Fault) (t : State), s.halt = some f ∧ step s = .next t ∧
    t.halt = none :=
  ⟨{ State.reset with halt := some (.stackUnderflow 0x200 0x00EE), inputs := [.reset (some [])] },
    .stackUnderflow 0x200 0x00EE, _, rfl, rfl, rfl⟩
theorem witness_CallPushesReturnAddress : ∃ s : State, s.sp.val + 1 = 16 := ⟨{ State.reset with sp := 15 }, by decide⟩
theorem witness_CallPushesReturnAddress_full : ∃ s : State, s.sp.val = 16 := ⟨{ State.reset with sp := 16 }, by decide⟩
theorem witness_ReturnPopsReturnAddress : ∃ (s : State) (k : Fin 16), s.sp.val = k.val + 1 ∧ k.val = 15 :=
  ⟨{ State.reset with sp := 16 }, 15, by decide⟩
theorem witness_ReturnPopsReturnAddress_lowest : ∃ (s : State) (k : Fin 16), s.sp.val = k.val + 1 ∧ k.val = 0 :=
  ⟨{ State.reset with sp := 1 }, 0, by decide⟩
theorem witness_ReturnPopsReturnAddress_empty : State.reset.sp.val = 0 := by decide
theorem witness_ReturnAfterCallComesBack : ∃ s t u : State, s.sp.val < 16 ∧ exec (.call 0x300) s = .next t ∧
    u.sp = t.sp ∧ u.stack = t.stack := ⟨{ State.reset with sp := 15 }, _, _, by decide, rfl, rfl, rfl⟩
theorem witness_destination_is_not_VF : (14 : Reg) ≠ vf := by decide
theorem witness_RandomByteOfTheTickIsMasked : ∃ s : State, s.halt = none ∧ s.awaitingKey = none ∧
    s.nextEvent = .tick 0 0 ∧ s.pc.toNat + 1 < 4096 ∧ s.fetchWord = encode (.rnd 3 0x0F) :=
  ⟨ticking.storeBytes 0x200 [0xC3, 0x0F], by decide⟩
theorem witness_DecimalDigitsAfterI : ∃ s : State, s.mem.wf = true ∧ s.i.toNat + 3 = 4095 :=
  ⟨{ State.reset with i := 0xFFC }, by decide⟩
theorem witness_DecimalDigitsAfterI_fault : ∃ s : State, s.mem.wf = true ∧ s.i.toNat + 3 = 4096 :=
  ⟨{ State.reset with i := 0xFFD }, by decide⟩
theorem witness_BlockStore : ∃ (s : State) (x : Reg), s.mem.wf = true ∧ s.i.toNat + x.val = 4095 :=
  ⟨{ State.reset with i := 0xFF0 }, 15, by decide⟩
theorem witness_BlockStore_fault : ∃ (s : State) (x : Reg), s.mem.wf = true ∧ s.i.toNat + x.val = 4096 :=
  ⟨{ State.reset with i := 0xFF1 }, 15, by decide⟩
theorem witness_BlockLoad : ∃ (s : State) (x : Reg), s.i.toNat + x.val = 4095 := ⟨{ State.reset with i := 0xFFF }, 0, by decide⟩
theorem witness_BlockLoad_fault : ∃ (s : State) (x : Reg), s.i.toNat + x.val = 4096 :=
  ⟨{ State.reset with i := 0x1000 }, 0, by decide⟩
theorem witness_BlockLoadRestoresBlockStore : ∃ (s t u : State) (x : Reg), s.mem.wf = true ∧ s.i.toNat + x.val < 4096 ∧
    exec (.ldMemVx x) s = .next t ∧ u.mem = t.mem ∧ u.i = t.i :=
  ⟨withData [(0, 1), (1, 2)] [], _, _, 1, by decide, by decide, rfl, rfl, rfl⟩
theorem witness_StoreIsSeenByNextFetch : ∃ (s : State) (x : Reg), s.mem.wf = true ∧ s.pc.toNat + 3 < 4096 ∧
    s.i = s.pc + 2 ∧ 1 ≤ x ∧ s.i.toNat + x.val < 4096 := ⟨{ State.reset with i := 0x202 }, 1, by decide⟩
theorem witness_DrawXorsTheWrappedSprite : ∃ (s : State) (n : Nibble), s.i.toNat + n.toNat = 4096 ∧ 0 < n.toNat :=
  ⟨{ State.reset with i := 0xFFF }, 1, by decide⟩
theorem witness_DrawXorsTheWrappedSprite_empty : ∃ (s : State) (n : Nibble), n.toNat = 0 ∧ s.i.toNat = 0xFFFF :=
  ⟨{ State.reset with i := 0xFFFF }, 0, by decide⟩
theorem witness_DrawXorsTheWrappedSprite_fault : ∃ (s : State) (n : Nibble), 0 < n.toNat ∧ s.i.toNat + n.toNat = 4097 :=
  ⟨{ State.reset with i := 0xFFF }, 2, by decide⟩
theorem witness_CollisionIsACellTurnedOff : nextHas (exec (.drw 0 1 1)
    { withData [] [0x80] with display := State.reset.display.set 0 1 }) (fun t =>
    !t.cell 0 0) = true ∧ cellOf (State.reset.display.set 0 1) 0 0 = true := by decide
theorem witness_CollisionIsACellTurnedOff_none : ∃ s : State, s.i.toNat + 1 ≤ 4096 ∧ ∀ c r, s.cell c r = false :=
  ⟨State.reset, by decide, fun c r => by simp [State.cell, cellOf, State.reset]⟩
theorem witness_DrawingTwiceRestoresTheDisplay : ∃ s t : State, (0 : Reg) ≠ vf ∧ (1 : Reg) ≠ vf ∧
    s.i.toNat + (5 : Nibble).toNat ≤ 4096 ∧ exec (.drw 0 1 5) s = .next t :=
  ⟨State.reset, _, by decide, by decide, by decide, rfl⟩
theorem witness_KeyWaitResolvesToLowestKey : ∃ (s : State) (keys : Word), s.halt = none ∧ s.awaitingKey = some 3 ∧
    s.nextEvent = .tick keys 0 ∧ keys ≠ 0 :=
  ⟨{ State.reset with awaitingKey := some 3, inputs := [.tick 0x8000 0] }, 0x8000, by decide⟩
theorem witness_KeyWaitResolvesToLowestKey_none : ∃ s : State, s.halt = none ∧ s.awaitingKey = some 15 ∧
    s.nextEvent = .tick 0 0 := ⟨{ ticking with awaitingKey := some 15 }, by decide⟩
theorem witness_TimerTickCountsDown : ∃ s : State, s.halt = none ∧ s.nextEvent = .timerTick ∧ s.dt = 0 ∧ s.st = 0xFF :=
  ⟨{ State.reset with inputs := [.timerTick], st := 0xFF }, by decide⟩
theorem witness_SoundTimerIsNeverRead : ∃ t : State, exec (.ldStVx 3) (withRegs [(3, 5)]) = .next t := ⟨_, rfl⟩
theorem witness_EveryInstructionKeepsItsFrame : faultOf State.reset (.drw 0 1 5) = none ∧
    faultOf State.reset .ret = some (.stackUnderflow 0x200 0x00EE) := by decide
theorem witness_FaultsAreExactlyTheListed : ∃ t : State, State.reset.halt = none ∧
    exec (.ldVxMem 15) { State.reset with i := 0xFF1 } = .next t ∧
    t.halt = some (.dataAddress 0x1000 0x200 0xFF65) := ⟨_, rfl, rfl, rfl⟩

/-- The invariant holds after reset whatever is queued. -/
theorem inv_of_inputs (es : List HostEvent) : State.Inv { State.reset with inputs := es } where
  mem := rfl
  pc := (by decide : (0x200 : Word).toNat ≤ 0x10FE)
  stack k := by simp [State.stackEntry, State.reset]
  halt f h := nomatch h
  wait := .inl rfl

theorem witness_EveryStepKeepsTheInvariant : ∃ s t : State, s.Inv ∧ step s = .next t ∧ t.pc = 0x202 :=
  ⟨{ State.reset with inputs := [.tick 0 0] }, _, inv_of_inputs _, rfl, by decide⟩
theorem witness_EveryStepKeepsTheInvariant_fault : ∃ s t : State, s.Inv ∧ step s = .next t ∧ t.halt ≠ none :=
  ⟨({ State.reset with inputs := [.tick 0 0], pc := 0xFFF } : State), _,
    ⟨rfl, by decide, fun k => by simp [State.stackEntry, State.reset], nofun, .inl rfl⟩, rfl, by decide⟩
theorem witness_LoadErrorForMissingOrOversizedImage : ∃ (s : State) (image : List Byte),
    s.nextEvent = .reset (some image) ∧ image.length = 3585 :=
  ⟨{ State.reset with inputs := [.reset (some (List.replicate 3585 0))] }, _, rfl, List.length_replicate⟩
theorem witness_LoadError_longest_image : ∃ image : List Byte, 0 < image.length ∧ image.length = 3584 :=
  ⟨List.replicate 3584 0, by rw [List.length_replicate]; decide, List.length_replicate⟩
theorem witness_LoadError_missing : ∃ s : State, s.nextEvent = .reset none :=
  ⟨{ State.reset with inputs := [.reset none] }, rfl⟩
theorem witness_ResetEventMakesANewMachine : ∃ (s : State) (image : List Byte),
    s.nextEvent = .reset (some image) ∧ image.length = 3584 ∧ s.halt ≠ none :=
  ⟨{ State.reset with
      inputs := [.reset (some (List.replicate 3584 0))], halt := some (.stackUnderflow 0x200 0x00EE) },
    _, rfl, List.length_replicate, by decide⟩
theorem witness_ResetEventMakesANewMachine_same_schedule : ∃ s u : State,
    s.nextEvent = .reset (some []) ∧ u.inputs = s.inputs ∧ u.eventNo = s.eventNo ∧ u.dt ≠ s.dt :=
  ⟨{ State.reset with inputs := [.reset (some [])] }, { State.reset with inputs := [.reset (some [])], dt := 9 },
    rfl, rfl, rfl, by decide⟩
theorem witness_ResetPlacesGlyphsAndImage : ∃ image : List Byte, image.length = 3584 :=
  ⟨List.replicate 3584 0, List.length_replicate⟩

end Sys2Proof.Tests
end

section
/-! PROOFS. The encoding (30_encoding.md): fields as masked and shifted words (R71, R73). -/

namespace Sys2Proof

/-- The bit field of R71 is its mask and shift, for every mask whose bits from `start` on are `len` ones. -/
theorem toNat_extractLsb'_eq_and_shift (w : Word) {mask : Word} {start len : Nat}
    (hmask : mask.toNat >>> start = 2 ^ len - 1) :
    (w.extractLsb' start len).toNat = ((w &&& mask) >>> start).toNat := by
  rw [BitVec.extractLsb'_toNat, BitVec.toNat_ushiftRight, BitVec.toNat_and, Nat.shiftRight_and_distrib, hmask,
    Nat.and_two_pow_sub_one_eq_mod]

/-- A field that starts at bit 0 is masked only. -/
theorem toNat_extractLsb'_zero_eq_and (w : Word) {mask : Word} {len : Nat} (hmask : mask.toNat = 2 ^ len - 1) :
    (w.extractLsb' 0 len).toNat = (w &&& mask).toNat := by
  rw [toNat_extractLsb'_eq_and_shift w (mask := mask) hmask, BitVec.ushiftRight_zero]

/-! ### The overlaps of R71, in numbers -/

theorem toNat_nnOf (w : Word) : (nnOf w).toNat = (yOf w).val <<< 4 ||| (nOf w).toNat := by
  rw [nnOf_eq, BitVec.toNat_append]
  rfl

theorem toNat_nnnOf (w : Word) : (nnnOf w).toNat = (xOf w).val <<< 8 ||| (nnOf w).toNat := by
  rw [nnnOf_eq, BitVec.toNat_append]
  rfl

/-- Settles O3: each field is an instance of `toNat_extractLsb'_eq_and_shift` at its row of R71's table, and the
overlaps are the concatenations `nnOf_eq` and `nnnOf_eq`. -/
theorem fieldsAreMaskedThenShifted : Obligations.FieldsAreMaskedThenShifted := by
  unfold Obligations.FieldsAreMaskedThenShifted
  refine ⟨fun w => ⟨?family, ?x, ?y, ?n, ?nn, ?nnn, toNat_nnOf w, toNat_nnnOf w⟩, by decide, by decide⟩
  case family => exact toNat_extractLsb'_eq_and_shift w (by decide)
  case x => exact toNat_extractLsb'_eq_and_shift w (by decide)
  case y => exact toNat_extractLsb'_eq_and_shift w (by decide)
  case n => exact toNat_extractLsb'_zero_eq_and w (by decide)
  case nn => exact toNat_extractLsb'_zero_eq_and w (by decide)
  case nnn => exact toNat_extractLsb'_zero_eq_and w (by decide)

end Sys2Proof
end

section
/-! PROOFS. The sequencer (40_sequencer.md): the keyboard sample of a tick (R102), jumps (R112), skips on a byte
(R114, R115) and the no-op words (R111, R153, R212, R218). -/

namespace Sys2Proof.Machine

/-! ### Jumps, skips and the default advance -/

/-- An address field keeps its value as a PC (R75). -/
@[simp] theorem toNat_addrWord (nnn : Addr12) : (addrWord nnn).toNat = nnn.toNat :=
  BitVec.toNat_setWidth_of_le (by decide)

/-- A jump changes PC alone. -/
theorem unchanged_jump (s : State) (target : Word) : Unchanged {} s (s.jump target) :=
  (Unchanged.refl {} s).jump target

/-- A skip on a condition P (R107): what every skip instruction answers, when its test decides P. -/
theorem next_skipIf (s : State) {b : Bool} {P : Prop} [Decidable P] (hb : b = true ↔ P) :
    ∃ t, (.next (s.skipIf b) : Host.Outcome State Fault Refusal) = .next t ∧
      t.pc = (if P then s.npc + 2 else s.npc) ∧ Unchanged {} s t :=
  ⟨_, rfl, by simp only [State.skipIf_pc, hb], (Unchanged.refl {} s).skipIf b⟩

/-! ### RET and CALL, case by case (R110, R113) -/

theorem execRet_of_empty {s : State} (h : s.sp = 0) : execRet s = raise (.stackUnderflow s.pc (encode .ret)) s := by
  simp only [execRet, pop_eq_none.2 h]

theorem execRet_of_pos {s : State} {k : Nat} (hk : k < 16) (h : s.sp.val = k + 1) :
    execRet s = .next (({ s with sp := ⟨k, by omega⟩ } : State).jump (s.stackEntry ⟨k, hk⟩)) := by
  simp only [execRet, pop_of_pos hk h]

theorem execCall_of_full {s : State} (nnn : Addr12) (h : s.sp.val = 16) :
    execCall nnn s = raise (.stackOverflow s.pc (encode (.call nnn))) s := by
  simp only [execCall, push_eq_none.2 h]

theorem execCall_of_lt {s : State} (nnn : Addr12) (h : s.sp.val < 16) :
    execCall nnn s = .next (({ s with
      stack := s.stack.set s.sp.val s.npc, sp := ⟨s.sp.val + 1, Nat.succ_lt_succ h⟩ } : State).jump
        (addrWord nnn)) := by
  simp only [execCall, push_of_lt s.npc h]

/-! ### The keyboard is written by the sample alone -/

theorem execRet_keeps_keyboard (s : State) : ∃ t, execRet s = .next t ∧ t.keyboard = s.keyboard := by
  cases hsp : s.sp.val with
  | zero => exact ⟨_, execRet_of_empty (Fin.ext hsp), rfl⟩
  | succ k => exact ⟨_, execRet_of_pos (by omega) hsp, rfl⟩

theorem execCall_keeps_keyboard (nnn : Addr12) (s : State) :
    ∃ t, execCall nnn s = .next t ∧ t.keyboard = s.keyboard := by
  by_cases hroom : s.sp.val < 16
  · exact ⟨_, execCall_of_lt nnn hroom, rfl⟩
  · exact ⟨_, execCall_of_full nnn (by omega), rfl⟩

/-- An I-relative instruction keeps the keyboard if its effect does: its fault writes `halt` alone. -/
theorem checkedAccess_keeps_keyboard (rg : Range) (i : Instr) {s t : State} (ht : t.keyboard = s.keyboard) :
    ∃ u, checkedAccess rg i s t = .next u ∧ u.keyboard = s.keyboard := by
  obtain ⟨-, heffect⟩ | ⟨a, -, hfault⟩ := checkedAccess_cases rg i s t
  · exact ⟨t, heffect, ht⟩
  · exact ⟨_, hfault, rfl⟩

/-- Every instruction completes, or halts in a next state, with the keyboard as it was (R30, R102). -/
theorem exec_keeps_keyboard (i : Instr) (s : State) : ∃ t, exec i s = .next t ∧ t.keyboard = s.keyboard := by
  cases i with
  | ret => exact execRet_keeps_keyboard s
  | call nnn => exact execCall_keeps_keyboard nnn s
  | drw x y n => exact checkedAccess_keeps_keyboard _ _ rfl
  | ldB x => exact checkedAccess_keeps_keyboard _ _ rfl
  | ldMemVx x => exact checkedAccess_keeps_keyboard _ _ rfl
  | ldVxMem x => exact checkedAccess_keeps_keyboard _ _ rfl
  | _ => exact ⟨_, rfl, rfl⟩

theorem execute_keeps_keyboard (s : State) : ∃ t, execute s = .next t ∧ t.keyboard = s.keyboard := by
  by_cases h : s.pc.toNat + 1 < Config.memSize
  · rw [execute_of_fetchable h]
    exact exec_keeps_keyboard _ s
  · exact ⟨_, execute_of_unfetchable h, rfl⟩

@[simp] theorem State.keyWaitStep_keyboard (s : State) (r : Reg) : (s.keyWaitStep r).keyboard = s.keyboard := by
  cases h : lowestSetBit s.keyboard with
  | none => rw [keyWaitStep_of_none h]
  | some k => rw [keyWaitStep_of_some h]; rfl

/-! ### The keyboard in a tick (R102) -/

theorem step_of_tick {s : State} {keys : Word} {rnd : Byte} (h : s.nextEvent = .tick keys rnd) :
    step s = tick keys rnd s.takeEvent := by
  simp only [step, h, hostEvent]

/-- A tick of a machine that is not halted ends with its own sample, key wait or not. -/
theorem tick_keyboard {s : State} (h : s.halt = none) (keys : Word) (rnd : Byte) :
    ∃ t, tick keys rnd s = .next t ∧ t.keyboard = keys := by
  cases hw : s.awaitingKey with
  | some r => exact ⟨_, tick_of_waiting h hw keys rnd, by simp⟩
  | none =>
    rw [tick_of_running h hw]
    exact execute_keeps_keyboard (s.sample keys rnd)

/-- The sample overwrites the old keyboard before anything of the tick reads it. -/
theorem tick_of_other_keyboard {s : State} (h : s.halt = none) (keys old : Word) (rnd : Byte) :
    tick keys rnd { s with keyboard := old } = tick keys rnd s := by
  have hsample : ({ s with keyboard := old } : State).sample keys rnd = s.sample keys rnd := rfl
  obtain hw | ⟨r, hw⟩ := Option.eq_none_or_eq_some s.awaitingKey
  · rw [tick_of_running h hw, tick_of_running (s := { s with keyboard := old }) h hw, hsample]
  · rw [tick_of_waiting h hw, tick_of_waiting (s := { s with keyboard := old }) h hw, hsample]

/-- Taking an event reads the schedule alone. -/
theorem takeEvent_of_other_keyboard (s : State) (old : Word) :
    ({ s with keyboard := old } : State).takeEvent = { s.takeEvent with keyboard := old } := by
  unfold State.takeEvent
  cases s.inputs <;> rfl

end Sys2Proof.Machine

namespace Sys2Proof
open Machine

/-- Settles O8: the sample stands at the end of a tick because no instruction and no key wait writes the keyboard
(`tick_keyboard`), and it replaces the old keyboard before anything reads it (`tick_of_other_keyboard`). -/
theorem keyboardIsSampledAtEveryTick : Obligations.KeyboardIsSampledAtEveryTick := by
  unfold Obligations.KeyboardIsSampledAtEveryTick
  intro s keys old rnd hrun hev
  have hrun' : s.takeEvent.halt = none := by rw [State.takeEvent_halt, hrun]
  have hev' : ({ s with keyboard := old } : State).nextEvent = .tick keys rnd := hev
  rw [step_of_tick hev, step_of_tick hev']
  refine ⟨tick_keyboard hrun' keys rnd, ?_⟩
  rw [takeEvent_of_other_keyboard]
  exact tick_of_other_keyboard hrun' keys old rnd

/-- Settles O11: the jump's target is the zero-extended address field. -/
theorem jumpSetsPc : Obligations.JumpSetsPc := by
  unfold Obligations.JumpSetsPc
  intro s nnn
  exact ⟨s.jump (addrWord nnn), rfl, toNat_addrWord nnn, unchanged_jump s _⟩

/-- Settles O16: both are instances of `next_skipIf`, with the test of the instruction. -/
theorem byteSkips : Obligations.ByteSkips := by
  unfold Obligations.ByteSkips
  intro s x nn
  exact ⟨next_skipIf s beq_iff_eq, next_skipIf s bne_iff_ne⟩

/-- Settles O18: each of the four classes is the default advance alone. -/
theorem noOpWordsOnlyAdvance : Obligations.NoOpWordsOnlyAdvance := by
  unfold Obligations.NoOpWordsOnlyAdvance
  intro s x y n nn nnn i hi
  have hexec : exec i s = .next s.advance := by
    simp only [List.mem_cons, List.not_mem_nil, or_false] at hi
    obtain rfl | rfl | rfl | rfl := hi <;> rfl
  exact ⟨s.advance, hexec, rfl, (Unchanged.refl {} s).advance⟩

end Sys2Proof
end

section
/-! PROOFS. The ALU (41_alu.md): loading and adding a byte (R141, R142). -/

namespace Sys2Proof.Machine

/-- An instruction that writes one byte to V[x] and advances: V[x] reads it, and PC and V[x] alone change. -/
theorem next_setReg_advance (s : State) (x : Reg) (u : Byte) :
    ∃ t, (.next (s.setReg x u).advance : Host.Outcome State Fault Refusal) = .next t ∧
      t.reg x = u ∧ t.pc = s.npc ∧ Unchanged { regs := [x] } s t :=
  ⟨_, rfl, reg_setReg_same s x u, rfl, ((Unchanged.refl _ s).setReg List.mem_cons_self u).advance⟩

end Sys2Proof.Machine

namespace Sys2Proof
open Machine

/-- Settles O19: both are instances of `next_setReg_advance`; the byte addition wraps modulo 2^8. -/
theorem loadAndAddByte : Obligations.LoadAndAddByte := by
  unfold Obligations.LoadAndAddByte
  intro s x nn
  refine ⟨next_setReg_advance s x nn, ?_⟩
  obtain ⟨t, hexec, hreg, hpc, hframe⟩ := next_setReg_advance s x (s.reg x + nn)
  have hsum : (t.reg x).toNat = ((s.reg x).toNat + nn.toNat) % 256 := by
    rw [hreg, BitVec.toNat_add]
  exact ⟨t, hexec, hsum, hpc, hframe⟩

end Sys2Proof
end

section
/-! PROOFS. The index register (42_index_memory.md): loading I (R170, R172). -/

namespace Sys2Proof.Machine

/-- The glyph address of a byte does not wrap: it is at most 255 * 5 = 1275 (R172). -/
@[simp] theorem toNat_glyphAddress (u : Byte) : (glyphAddress u).toNat = u.toNat * 5 := by
  have hfits : u.toNat * 5 < 2 ^ 16 := by omega
  rw [glyphAddress, BitVec.toNat_ofNat, Nat.mod_eq_of_lt hfits]

/-- An instruction that loads I and advances: I reads the word, and PC and I alone change. -/
theorem next_setI_advance (s : State) (w : Word) :
    ∃ t, (.next { s with i := w }.advance : Host.Outcome State Fault Refusal) = .next t ∧
      t.i = w ∧ t.pc = s.npc ∧ Unchanged { i := true } s t :=
  ⟨_, rfl, rfl, rfl, ((Unchanged.refl _ s).setI rfl w).advance⟩

end Sys2Proof.Machine

namespace Sys2Proof
open Machine

/-- Settles O27: both are instances of `next_setI_advance`; neither the address field nor five times a byte leaves
the 16 bits of I. -/
theorem indexLoads : Obligations.IndexLoads := by
  unfold Obligations.IndexLoads
  intro s x nnn
  constructor
  · obtain ⟨t, hexec, hi, hpc, hframe⟩ := next_setI_advance s (addrWord nnn)
    exact ⟨t, hexec, by rw [hi, toNat_addrWord], hpc, hframe⟩
  · obtain ⟨t, hexec, hi, hpc, hframe⟩ := next_setI_advance s (glyphAddress (s.reg x))
    exact ⟨t, hexec, by rw [hi, toNat_glyphAddress], hpc, hframe⟩

end Sys2Proof
end

section
/-! PROOFS. The display (43_sprite_display.md): the clear (R191). -/

namespace Sys2Proof.Machine

/-- The state that 00E0 answers: the cleared display, then the default advance (R191). -/
theorem exec_cls (s : State) : exec .cls s = .next { s with display := clearDisplay }.advance := rfl

end Sys2Proof.Machine

namespace Sys2Proof
open Machine

/-- Settles O34: every cell of the cleared display is 0, and the frame is that of a display update and the advance,
neither of which touches a register. -/
theorem clearClearsEveryCell : Obligations.ClearClearsEveryCell := by
  unfold Obligations.ClearClearsEveryCell
  intro s
  have hframe : Unchanged { display := true } s { s with display := clearDisplay }.advance :=
    ((Unchanged.refl _ s).setDisplay rfl clearDisplay).advance
  exact ⟨_, exec_cls s, cellOf_clearDisplay, rfl, hframe⟩

end Sys2Proof
end

section
/-! PROOFS. The timers and keys (44_timers_keys.md): the copies between V[x] and the timers (R214, R216, R217). -/

namespace Sys2Proof.Machine

/-- An instruction that writes DT and advances: DT reads the byte, and PC and DT alone change. -/
theorem next_setDt_advance (s : State) (u : Byte) :
    ∃ t, (.next { s with dt := u }.advance : Host.Outcome State Fault Refusal) = .next t ∧
      t.dt = u ∧ t.pc = s.npc ∧ Unchanged { dt := true } s t :=
  ⟨_, rfl, rfl, rfl, ((Unchanged.refl _ s).setDt rfl u).advance⟩

/-- An instruction that writes ST and advances: ST reads the byte, and PC and ST alone change. -/
theorem next_setSt_advance (s : State) (u : Byte) :
    ∃ t, (.next { s with st := u }.advance : Host.Outcome State Fault Refusal) = .next t ∧
      t.st = u ∧ t.pc = s.npc ∧ Unchanged { st := true } s t :=
  ⟨_, rfl, rfl, rfl, ((Unchanged.refl _ s).setSt rfl u).advance⟩

end Sys2Proof.Machine

namespace Sys2Proof
open Machine

/-- Settles O39: each copy is one write and the advance, with the byte that its source holds before the
instruction. -/
theorem timerCopies : Obligations.TimerCopies := by
  unfold Obligations.TimerCopies
  intro s x
  exact ⟨next_setReg_advance s x s.dt, next_setDt_advance s (s.reg x), next_setSt_advance s (s.reg x)⟩

end Sys2Proof
end

section
/-! PROOFS. The encoding (30_encoding.md): the round trips between words and instructions (R72, R74, R76) and the
most specific row of the opcode map (R83). -/

namespace Sys2Proof

/-! ### Decoding an encoding: the catch-all rows (R77 to R80) -/

theorem wordNNN_eq_iff {f : Nibble} {a b : Addr12} : wordNNN f a = wordNNN f b ↔ a = b :=
  ⟨fun h => by rw [← nnnOf_wordNNN f a, h, nnnOf_wordNNN], congrArg (wordNNN f)⟩

theorem decodeFamily0_wordNNN {nnn : Addr12} (hcls : nnn ≠ 0x0E0) (hret : nnn ≠ 0x0EE) :
    decodeFamily0 (wordNNN 0x0 nnn) = .sys nnn := by
  have hcls' : wordNNN 0x0 nnn ≠ 0x00E0 := fun h => hcls (wordNNN_eq_iff.1 h)
  have hret' : wordNNN 0x0 nnn ≠ 0x00EE := fun h => hret (wordNNN_eq_iff.1 h)
  rw [decodeFamily0, if_neg hcls', if_neg hret', nnnOf_wordNNN]

theorem decodeFamily8_of_mem {w : Word} (h : nOf w ∈ nop8SubOpcodes) :
    decodeFamily8 w = .nop8 (xOf w) (yOf w) (nOf w) := by
  simp only [nop8SubOpcodes, List.mem_cons, List.not_mem_nil, or_false] at h
  obtain h | h | h | h | h | h | h := h <;> simp [decodeFamily8, h]

/-- A byte outside a list has none of its values: the form in which the decoder's `match` asks. -/
theorem toNat_ne_of_not_mem {b : Byte} {bs : List Byte} (h : b ∉ bs) : ∀ k ∈ bs.map BitVec.toNat, b.toNat ≠ k := by
  intro k hk hbk
  obtain ⟨c, hc, rfl⟩ := List.mem_map.1 hk
  exact h (BitVec.eq_of_toNat_eq hbk ▸ hc)

theorem decodeFamilyE_of_not_mem {w : Word} (h : nnOf w ∉ subOpcodesE) :
    decodeFamilyE w = .nopE (xOf w) (nnOf w) := by
  have hne := toNat_ne_of_not_mem h
  unfold decodeFamilyE
  split
  case h_3 => rfl
  all_goals next hb => exact absurd hb (hne _ (by decide))

theorem decodeFamilyF_of_not_mem {w : Word} (h : nnOf w ∉ subOpcodesF) :
    decodeFamilyF w = .nopF (xOf w) (nnOf w) := by
  have hne := toNat_ne_of_not_mem h
  unfold decodeFamilyF
  split
  case h_10 => rfl
  all_goals next hb => exact absurd hb (hne _ (by decide))

/-- Settles O1: the fields of the encoded word are the operands, and in a catch-all row they name no row of its
family. -/
theorem decodeOfEncodeIsIdentity : Obligations.DecodeOfEncodeIsIdentity := by
  unfold Obligations.DecodeOfEncodeIsIdentity
  intro i hwf
  cases i with
  | cls => rfl
  | ret => rfl
  | sys nnn =>
    simp only [Instr.wellFormed, Bool.and_eq_true, bne_iff_ne] at hwf
    obtain ⟨hcls, hret⟩ := hwf
    simpa [encode, decode] using decodeFamily0_wordNNN hcls hret
  | nop8 x y n =>
    have hn : nOf (wordXYN 0x8 x y n) ∈ nop8SubOpcodes := by
      simpa [Instr.wellFormed] using hwf
    simpa [encode, decode] using decodeFamily8_of_mem hn
  | nopE x nn =>
    have hnn : nnOf (wordXNN 0xE x nn) ∉ subOpcodesE := by
      simpa [Instr.wellFormed] using hwf
    simpa [encode, decode] using decodeFamilyE_of_not_mem hnn
  | nopF x nn =>
    have hnn : nnOf (wordXNN 0xF x nn) ∉ subOpcodesF := by
      simpa [Instr.wellFormed] using hwf
    simpa [encode, decode] using decodeFamilyF_of_not_mem hnn
  | _ => simp [encode, decode, decodeFamily8, decodeFamilyE, decodeFamilyF]

/-! ### Every word is an encoding -/

theorem wordNNN_of_family {w : Word} {f : Nibble} (hf : familyOf w = f) : wordNNN f (nnnOf w) = w :=
  hf ▸ wordNNN_fields w

theorem wordXNN_of_family {w : Word} {f : Nibble} (hf : familyOf w = f) : wordXNN f (xOf w) (nnOf w) = w :=
  hf ▸ wordXNN_fields w

theorem wordXYN_of_family {w : Word} {f : Nibble} (hf : familyOf w = f) :
    wordXYN f (xOf w) (yOf w) (nOf w) = w :=
  hf ▸ wordXYN_fields w

theorem wordXNN_of_fields {w : Word} {f : Nibble} {b : Byte} (hf : familyOf w = f) (hb : nnOf w = b) :
    wordXNN f (xOf w) b = w :=
  hb ▸ wordXNN_of_family hf

theorem wordXYN_of_fields {w : Word} {f n : Nibble} (hf : familyOf w = f) (hn : nOf w = n) :
    wordXYN f (xOf w) (yOf w) n = w :=
  hn ▸ wordXYN_of_family hf

/-- The word is the encoding of a well-formed instruction whose row has the mask. -/
def EncodesWithMask (w mask : Word) : Prop := ∃ i : Instr, i.wellFormed = true ∧ encode i = w ∧ i.row.1 = mask

theorem encodesWithMask_whole {w : Word} (h : w = 0x00E0 ∨ w = 0x00EE) : EncodesWithMask w maskWhole := by
  obtain rfl | rfl := h
  · exact ⟨.cls, rfl, rfl, rfl⟩
  · exact ⟨.ret, rfl, rfl, rfl⟩

theorem encodesWithMask_sys {w : Word} (hf : familyOf w = 0x0) (h : ¬ (w = 0x00E0 ∨ w = 0x00EE)) :
    EncodesWithMask w maskFamily := by
  have hw : wordNNN 0x0 (nnnOf w) = w := wordNNN_of_family hf
  have hcls : nnnOf w ≠ 0x0E0 := fun e => h (.inl (by rw [← hw, e]; rfl))
  have hret : nnnOf w ≠ 0x0EE := fun e => h (.inr (by rw [← hw, e]; rfl))
  exact ⟨.sys (nnnOf w), by simpa [Instr.wellFormed] using ⟨hcls, hret⟩, hw, rfl⟩

theorem encodesWithMask_nibble {w : Word} (hf : familyOf w = 0x8) (h : nOf w ∉ nop8SubOpcodes) :
    EncodesWithMask w maskNibble := by
  have hsub : ∀ n : Nibble, n ∉ nop8SubOpcodes → n = 0x0 ∨ n = 0x1 ∨ n = 0x2 ∨ n = 0x3 ∨ n = 0x4 ∨ n = 0x5 ∨
      n = 0x6 ∨ n = 0x7 ∨ n = 0xE := by decide
  obtain hn | hn | hn | hn | hn | hn | hn | hn | hn := hsub _ h
  · exact ⟨.ldReg (xOf w) (yOf w), rfl, wordXYN_of_fields hf hn, rfl⟩
  · exact ⟨.orReg (xOf w) (yOf w), rfl, wordXYN_of_fields hf hn, rfl⟩
  · exact ⟨.andReg (xOf w) (yOf w), rfl, wordXYN_of_fields hf hn, rfl⟩
  · exact ⟨.xorReg (xOf w) (yOf w), rfl, wordXYN_of_fields hf hn, rfl⟩
  · exact ⟨.addReg (xOf w) (yOf w), rfl, wordXYN_of_fields hf hn, rfl⟩
  · exact ⟨.sub (xOf w) (yOf w), rfl, wordXYN_of_fields hf hn, rfl⟩
  · exact ⟨.shr (xOf w) (yOf w), rfl, wordXYN_of_fields hf hn, rfl⟩
  · exact ⟨.subn (xOf w) (yOf w), rfl, wordXYN_of_fields hf hn, rfl⟩
  · exact ⟨.shl (xOf w) (yOf w), rfl, wordXYN_of_fields hf hn, rfl⟩

theorem encodesWithMask_nop8 {w : Word} (hf : familyOf w = 0x8) (h : nOf w ∈ nop8SubOpcodes) :
    EncodesWithMask w maskFamily :=
  ⟨.nop8 (xOf w) (yOf w) (nOf w), by simpa [Instr.wellFormed] using h, wordXYN_of_family hf, rfl⟩

theorem encodesWithMask_byteE {w : Word} (hf : familyOf w = 0xE) (h : nnOf w ∈ subOpcodesE) :
    EncodesWithMask w maskByte := by
  simp only [subOpcodesE, List.mem_cons, List.not_mem_nil, or_false] at h
  obtain hb | hb := h
  · exact ⟨.skp (xOf w), rfl, wordXNN_of_fields hf hb, rfl⟩
  · exact ⟨.sknp (xOf w), rfl, wordXNN_of_fields hf hb, rfl⟩

theorem encodesWithMask_nopE {w : Word} (hf : familyOf w = 0xE) (h : nnOf w ∉ subOpcodesE) :
    EncodesWithMask w maskFamily :=
  ⟨.nopE (xOf w) (nnOf w), by simpa [Instr.wellFormed] using h, wordXNN_of_family hf, rfl⟩

theorem encodesWithMask_byteF {w : Word} (hf : familyOf w = 0xF) (h : nnOf w ∈ subOpcodesF) :
    EncodesWithMask w maskByte := by
  simp only [subOpcodesF, List.mem_cons, List.not_mem_nil, or_false] at h
  obtain hb | hb | hb | hb | hb | hb | hb | hb | hb := h
  · exact ⟨.ldVxDt (xOf w), rfl, wordXNN_of_fields hf hb, rfl⟩
  · exact ⟨.ldVxK (xOf w), rfl, wordXNN_of_fields hf hb, rfl⟩
  · exact ⟨.ldDtVx (xOf w), rfl, wordXNN_of_fields hf hb, rfl⟩
  · exact ⟨.ldStVx (xOf w), rfl, wordXNN_of_fields hf hb, rfl⟩
  · exact ⟨.addI (xOf w), rfl, wordXNN_of_fields hf hb, rfl⟩
  · exact ⟨.ldF (xOf w), rfl, wordXNN_of_fields hf hb, rfl⟩
  · exact ⟨.ldB (xOf w), rfl, wordXNN_of_fields hf hb, rfl⟩
  · exact ⟨.ldMemVx (xOf w), rfl, wordXNN_of_fields hf hb, rfl⟩
  · exact ⟨.ldVxMem (xOf w), rfl, wordXNN_of_fields hf hb, rfl⟩

theorem encodesWithMask_nopF {w : Word} (hf : familyOf w = 0xF) (h : nnOf w ∉ subOpcodesF) :
    EncodesWithMask w maskFamily :=
  ⟨.nopF (xOf w) (nnOf w), by simpa [Instr.wellFormed] using h, wordXNN_of_family hf, rfl⟩

theorem nibble_cases (f : Nibble) : f = 0x0 ∨ f = 0x1 ∨ f = 0x2 ∨ f = 0x3 ∨ f = 0x4 ∨ f = 0x5 ∨ f = 0x6 ∨ f = 0x7 ∨
    f = 0x8 ∨ f = 0x9 ∨ f = 0xA ∨ f = 0xB ∨ f = 0xC ∨ f = 0xD ∨ f = 0xE ∨ f = 0xF := by
  revert f
  decide

/-- The sixteen families of R76: every word belongs to a row. -/
theorem exists_encodesWithMask (w : Word) : ∃ mask, EncodesWithMask w mask := by
  obtain hf | hf | hf | hf | hf | hf | hf | hf | hf | hf | hf | hf | hf | hf | hf | hf := nibble_cases (familyOf w)
  · by_cases h : w = 0x00E0 ∨ w = 0x00EE
    · exact ⟨_, encodesWithMask_whole h⟩
    · exact ⟨_, encodesWithMask_sys hf h⟩
  · exact ⟨_, .jp (nnnOf w), rfl, wordNNN_of_family hf, rfl⟩
  · exact ⟨_, .call (nnnOf w), rfl, wordNNN_of_family hf, rfl⟩
  · exact ⟨_, .seByte (xOf w) (nnOf w), rfl, wordXNN_of_family hf, rfl⟩
  · exact ⟨_, .sneByte (xOf w) (nnOf w), rfl, wordXNN_of_family hf, rfl⟩
  · exact ⟨_, .sne5Reg (xOf w) (yOf w) (nOf w), rfl, wordXYN_of_family hf, rfl⟩
  · exact ⟨_, .ldByte (xOf w) (nnOf w), rfl, wordXNN_of_family hf, rfl⟩
  · exact ⟨_, .addByte (xOf w) (nnOf w), rfl, wordXNN_of_family hf, rfl⟩
  · by_cases h : nOf w ∈ nop8SubOpcodes
    · exact ⟨_, encodesWithMask_nop8 hf h⟩
    · exact ⟨_, encodesWithMask_nibble hf h⟩
  · exact ⟨_, .sneReg (xOf w) (yOf w) (nOf w), rfl, wordXYN_of_family hf, rfl⟩
  · exact ⟨_, .ldI (nnnOf w), rfl, wordNNN_of_family hf, rfl⟩
  · exact ⟨_, .jpV0 (nnnOf w), rfl, wordNNN_of_family hf, rfl⟩
  · exact ⟨_, .rnd (xOf w) (nnOf w), rfl, wordXNN_of_family hf, rfl⟩
  · exact ⟨_, .drw (xOf w) (yOf w) (nOf w), rfl, wordXYN_of_family hf, rfl⟩
  · by_cases h : nnOf w ∈ subOpcodesE
    · exact ⟨_, encodesWithMask_byteE hf h⟩
    · exact ⟨_, encodesWithMask_nopE hf h⟩
  · by_cases h : nnOf w ∈ subOpcodesF
    · exact ⟨_, encodesWithMask_byteF hf h⟩
    · exact ⟨_, encodesWithMask_nopF hf h⟩

/-- Settles O2: the word is the encoding of some well-formed instruction, which is the one it decodes to (O1). -/
theorem everyWordIsItsInstruction : Obligations.EveryWordIsItsInstruction := by
  unfold Obligations.EveryWordIsItsInstruction
  intro w
  obtain ⟨-, i, hwf, rfl, -⟩ := exists_encodesWithMask w
  rw [decodeOfEncodeIsIdentity i hwf]
  exact ⟨hwf, rfl⟩

/-! ### The most specific row (R83) -/

theorem decode_row_mask {w mask : Word} (h : EncodesWithMask w mask) : (decode w).row.1 = mask := by
  obtain ⟨i, hwf, rfl, hmask⟩ := h
  rw [decodeOfEncodeIsIdentity i hwf, hmask]

theorem row_mem_opcodeRows (i : Instr) : i.row ∈ opcodeRows := by
  cases i <;> exact List.mem_of_elem_eq_true rfl

theorem rowMatches_encode (i : Instr) (hwf : i.wellFormed = true) : rowMatches (encode i) i.row = true := by
  revert hwf
  cases i with
  | cls => exact Laws.EncodingRow.cls
  | ret => exact Laws.EncodingRow.ret
  | sys nnn => exact Laws.EncodingRow.sys nnn
  | jp nnn => exact Laws.EncodingRow.jp nnn
  | call nnn => exact Laws.EncodingRow.call nnn
  | seByte x nn => exact Laws.EncodingRow.seByte x nn
  | sneByte x nn => exact Laws.EncodingRow.sneByte x nn
  | sne5Reg x y n => exact Laws.EncodingRow.sne5Reg x y n
  | ldByte x nn => exact Laws.EncodingRow.ldByte x nn
  | addByte x nn => exact Laws.EncodingRow.addByte x nn
  | ldReg x y => exact Laws.EncodingRow.ldReg x y
  | orReg x y => exact Laws.EncodingRow.orReg x y
  | andReg x y => exact Laws.EncodingRow.andReg x y
  | xorReg x y => exact Laws.EncodingRow.xorReg x y
  | addReg x y => exact Laws.EncodingRow.addReg x y
  | sub x y => exact Laws.EncodingRow.sub x y
  | shr x y => exact Laws.EncodingRow.shr x y
  | subn x y => exact Laws.EncodingRow.subn x y
  | shl x y => exact Laws.EncodingRow.shl x y
  | nop8 x y n => exact Laws.EncodingRow.nop8 x y n
  | sneReg x y n => exact Laws.EncodingRow.sneReg x y n
  | ldI nnn => exact Laws.EncodingRow.ldI nnn
  | jpV0 nnn => exact Laws.EncodingRow.jpV0 nnn
  | rnd x nn => exact Laws.EncodingRow.rnd x nn
  | drw x y n => exact Laws.EncodingRow.drw x y n
  | skp x => exact Laws.EncodingRow.skp x
  | sknp x => exact Laws.EncodingRow.sknp x
  | nopE x nn => exact Laws.EncodingRow.nopE x nn
  | ldVxDt x => exact Laws.EncodingRow.ldVxDt x
  | ldVxK x => exact Laws.EncodingRow.ldVxK x
  | ldDtVx x => exact Laws.EncodingRow.ldDtVx x
  | ldStVx x => exact Laws.EncodingRow.ldStVx x
  | addI x => exact Laws.EncodingRow.addI x
  | ldF x => exact Laws.EncodingRow.ldF x
  | ldB x => exact Laws.EncodingRow.ldB x
  | ldMemVx x => exact Laws.EncodingRow.ldMemVx x
  | ldVxMem x => exact Laws.EncodingRow.ldVxMem x
  | nopF x nn => exact Laws.EncodingRow.nopF x nn

theorem rowMatches_decode_row (w : Word) : rowMatches w (decode w).row = true := by
  obtain ⟨hwf, hencode⟩ := everyWordIsItsInstruction w
  simpa only [hencode] using rowMatches_encode (decode w) hwf

theorem rowMatches_iff {w : Word} {row : Word × Word} : rowMatches w row = true ↔ w &&& row.1 = row.2 := beq_iff_eq

/-- Two rows with one mask cannot both match a word. -/
theorem row_eq_of_mask_eq {w : Word} {row row' : Word × Word} (h : rowMatches w row = true)
    (h' : rowMatches w row' = true) (hmask : row.1 = row'.1) : row = row' := by
  refine Prod.ext hmask ?_
  rw [← rowMatches_iff.1 h, ← rowMatches_iff.1 h', hmask]

/-- A field that the mask covers whole is the same in the word and in the match column. -/
theorem extractLsb'_of_rowMatches {w : Word} {row : Word × Word} {start len : Nat} (h : rowMatches w row = true)
    (hcovered : row.1.extractLsb' start len = BitVec.allOnes len) :
    w.extractLsb' start len = row.2.extractLsb' start len := by
  rw [← rowMatches_iff.1 h, BitVec.extractLsb'_and, hcovered, BitVec.and_allOnes]

/-- The rows that are no catch-all row, by their masks (R83). -/
theorem opcodeRows_cases : ∀ row ∈ opcodeRows, row.1 = maskFamily ∨
    (row.1 = maskWhole ∧ (row.2 = 0x00E0 ∨ row.2 = 0x00EE)) ∨
    (row.1 = maskNibble ∧ familyOf row.2 = 0x8 ∧ nOf row.2 ∉ nop8SubOpcodes) ∨
    (row.1 = maskByte ∧ familyOf row.2 = 0xE ∧ nnOf row.2 ∈ subOpcodesE) ∨
    (row.1 = maskByte ∧ familyOf row.2 = 0xF ∧ nnOf row.2 ∈ subOpcodesF) := by
  intro row h
  fin_cases h <;> decide

/-- A row whose mask covers more than the family is the row of every word it matches. -/
theorem encodesWithMask_of_rowMatches {w : Word} {row : Word × Word} (hrow : row ∈ opcodeRows)
    (h : rowMatches w row = true) (hmask : row.1 ≠ maskFamily) : EncodesWithMask w row.1 := by
  have hfield {start len : Nat} := extractLsb'_of_rowMatches (start := start) (len := len) h
  obtain hm | ⟨hm, hw⟩ | ⟨hm, hf, hn⟩ | ⟨hm, hf, hb⟩ | ⟨hm, hf, hb⟩ := opcodeRows_cases row hrow
  · exact absurd hm hmask
  · have hwhole : w = row.2 := by
      rw [← rowMatches_iff.1 h, hm]
      exact BitVec.and_allOnes.symm
    exact hm ▸ encodesWithMask_whole (hwhole ▸ hw)
  · have hfw : familyOf w = familyOf row.2 := hfield (by rw [hm]; rfl)
    have hnw : nOf w = nOf row.2 := hfield (by rw [hm]; rfl)
    exact hm ▸ encodesWithMask_nibble (hfw.trans hf) (hnw ▸ hn)
  · have hfw : familyOf w = familyOf row.2 := hfield (by rw [hm]; rfl)
    have hbw : nnOf w = nnOf row.2 := hfield (by rw [hm]; rfl)
    exact hm ▸ encodesWithMask_byteE (hfw.trans hf) (hbw ▸ hb)
  · have hfw : familyOf w = familyOf row.2 := hfield (by rw [hm]; rfl)
    have hbw : nnOf w = nnOf row.2 := hfield (by rw [hm]; rfl)
    exact hm ▸ encodesWithMask_byteF (hfw.trans hf) (hbw ▸ hb)

/-- The family mask has four bits, every other mask of the map has more. -/
theorem countP_maskFamily_lt : ∀ row ∈ opcodeRows, row.1 ≠ maskFamily →
    (List.range 16).countP (maskFamily.getLsbD ·) < (List.range 16).countP (row.1.getLsbD ·) := by
  intro row hrow hmask
  obtain hm | ⟨hm, -⟩ | ⟨hm, -⟩ | ⟨hm, -⟩ | ⟨hm, -⟩ := opcodeRows_cases row hrow
  · exact absurd hm hmask
  all_goals rw [hm]; decide

/-- Settles O4: a matching row with more than the family in its mask is the row decoded to; a catch-all row that
matches has the fewest bits, and no second one of its mask matches. -/
theorem mostSpecificRowWins : Obligations.MostSpecificRowWins := by
  unfold Obligations.MostSpecificRowWins
  intro w
  refine ⟨row_mem_opcodeRows _, rowMatches_decode_row w, fun row hrow h hne => ?_⟩
  have hmask : row.1 ≠ (decode w).row.1 := fun e => hne (row_eq_of_mask_eq h (rowMatches_decode_row w) e)
  have hfamily : row.1 = maskFamily := by
    by_contra hspecific
    exact hmask (decode_row_mask (encodesWithMask_of_rowMatches hrow h hspecific)).symm
  rw [hfamily] at hmask ⊢
  exact countP_maskFamily_lt _ (row_mem_opcodeRows _) hmask.symm

/-! ### Sample words -/

/-- Settles O5: the decoder evaluates each word to its instruction. -/
theorem sampleWordsDecode : Obligations.SampleWordsDecode := by
  unfold Obligations.SampleWordsDecode
  decide

end Sys2Proof
end

section
/-! PROOFS. Faults (60_exceptions.md): what a faulting instruction answers, and what RET, CALL and the I-relative
instructions answer when they do not fault (R53, R110, R113, R242 to R244, R246). -/

namespace Sys2Proof.Machine

/-! ### The fault of an I-relative instruction is its bounds check (R53, R242) -/

theorem firstBadAddress_eq_ite (a n : Nat) :
    firstBadAddress a n = if 0 < n ∧ 4096 ≤ a + n - 1 then some (max a 4096) else none := by
  grind [firstBadAddress]

/-- The fault that a failed bounds check at address a raises. -/
def dataFault (s : State) (i : Instr) (a : Nat) : Fault := .dataAddress a s.pc (encode i)

theorem faultOf_drw (s : State) (x y : Reg) (n : Nibble) :
    faultOf s (.drw x y n) = (s.spriteRange n).fault.map (dataFault s (.drw x y n)) := by
  simp only [faultOf, Range.fault, firstBadAddress_eq_ite, State.spriteRange, State.ea, Nat.add_zero]
  split_ifs <;> rfl

theorem faultOf_ldB (s : State) (x : Reg) :
    faultOf s (.ldB x) = s.digitRange.fault.map (dataFault s (.ldB x)) := by
  simp only [faultOf, Range.fault, firstBadAddress_eq_ite, State.digitRange, State.ea]
  simp only [show s.i.toNat + 1 + 3 - 1 = s.i.toNat + 3 by omega, Nat.zero_lt_succ, true_and]
  split_ifs <;> rfl

theorem fault_blockRange (s : State) (x : Reg) :
    (s.blockRange x).fault = if 4096 ≤ s.i.toNat + x.val then some (max s.i.toNat 4096) else none := by
  simp [Range.fault, firstBadAddress_eq_ite, State.blockRange, State.ea]

theorem faultOf_ldMemVx (s : State) (x : Reg) :
    faultOf s (.ldMemVx x) = (s.blockRange x).fault.map (dataFault s (.ldMemVx x)) := by
  rw [fault_blockRange, faultOf]
  split_ifs <;> rfl

theorem faultOf_ldVxMem (s : State) (x : Reg) :
    faultOf s (.ldVxMem x) = (s.blockRange x).fault.map (dataFault s (.ldVxMem x)) := by
  rw [fault_blockRange, faultOf]
  split_ifs <;> rfl

/-! ### A faulting instruction writes `halt` alone (R246) -/

theorem checkedAccess_of_fault {rg : Range} {i : Instr} {s : State} {f : Fault} (t : State)
    (h : rg.fault.map (dataFault s i) = some f) : checkedAccess rg i s t = .next { s with halt := some f } := by
  obtain ⟨a, ha, rfl⟩ := Option.map_eq_some_iff.1 h
  exact checkedAccess_of_some i s t ha

theorem checkedAccess_of_no_fault {rg : Range} {i : Instr} {s : State} (t : State)
    (h : rg.fault.map (dataFault s i) = none) : checkedAccess rg i s t = .next t :=
  checkedAccess_of_none i s t (Option.map_eq_none_iff.1 h)

theorem faultOf_call (s : State) (nnn : Addr12) :
    faultOf s (.call nnn) = if s.sp.val = 16 then some (.stackOverflow s.pc (encode (.call nnn))) else none := rfl

theorem faultOf_ret (s : State) :
    faultOf s .ret = if s.sp.val = 0 then some (.stackUnderflow s.pc (encode .ret)) else none := rfl

/-- An instruction whose rule names a fault answers the old state with `halt` set to it. -/
theorem exec_of_fault {i : Instr} {s : State} {f : Fault} (h : faultOf s i = some f) :
    exec i s = .next { s with halt := some f } := by
  cases i with
  | ret =>
    rw [faultOf_ret, Option.ite_none_right_eq_some] at h
    obtain ⟨hempty, hf⟩ := h
    cases hf
    exact execRet_of_empty (Fin.ext hempty)
  | call nnn =>
    rw [faultOf_call, Option.ite_none_right_eq_some] at h
    obtain ⟨hfull, hf⟩ := h
    cases hf
    exact execCall_of_full nnn hfull
  | drw x y n => exact checkedAccess_of_fault _ (faultOf_drw s x y n ▸ h)
  | ldB x => exact checkedAccess_of_fault _ (faultOf_ldB s x ▸ h)
  | ldMemVx x => exact checkedAccess_of_fault _ (faultOf_ldMemVx s x ▸ h)
  | ldVxMem x => exact checkedAccess_of_fault _ (faultOf_ldVxMem s x ▸ h)
  | _ => exact nomatch h

/-- The four things every statement says of a fault. -/
theorem next_of_fault {i : Instr} {s : State} {f : Fault} (h : faultOf s i = some f) :
    ∃ t, exec i s = .next t ∧ t.halt = some f ∧ t.pc = s.pc ∧ Unchanged { halt := true } s t :=
  ⟨_, exec_of_fault h, rfl, rfl, (Unchanged.refl _ s).setHalt rfl _⟩

/-! ### What the six instructions that can fault answer when they do not -/

/-- The state 2NNN answers with room on the stack (R113). -/
def State.called (s : State) (nnn : Addr12) (h : s.sp.val < 16) : State :=
  ({ s with stack := s.stack.set s.sp.val s.npc, sp := ⟨s.sp.val + 1, Nat.succ_lt_succ h⟩ } : State).jump
    (addrWord nnn)

/-- The state 00EE answers with SP = k + 1 (R110). -/
def State.returned (s : State) (k : Fin 16) : State :=
  ({ s with sp := ⟨k, by omega⟩ } : State).jump (s.stackEntry k)

theorem exec_call_of_lt {s : State} (nnn : Addr12) (h : s.sp.val < 16) :
    exec (.call nnn) s = .next (s.called nnn h) := execCall_of_lt nnn h

theorem exec_ret_of_pos {s : State} {k : Fin 16} (h : s.sp.val = k.val + 1) :
    exec .ret s = .next (s.returned k) := execRet_of_pos k.isLt h

/-- The canvas DXYN leaves (R192). -/
def State.drawn (s : State) (x y : Reg) (n : Nibble) : Canvas :=
  s.drawSprite (s.reg x) (s.reg y) (s.bytes (s.spriteRange n).first (s.spriteRange n).count)

/-- The state that a drawn canvas makes: the display, then the collision bit in VF. -/
def State.withCanvas (s : State) (cv : Canvas) : State :=
  ({ s with display := cv.cells } : State).setReg vf (flagByte cv.hit)

theorem exec_drw_of_no_fault {s : State} {x y : Reg} {n : Nibble} (h : faultOf s (.drw x y n) = none) :
    exec (.drw x y n) s = .next (s.withCanvas (s.drawn x y n)).advance :=
  checkedAccess_of_no_fault _ (faultOf_drw s x y n ▸ h)

theorem exec_ldB_of_no_fault {s : State} {x : Reg} (h : faultOf s (.ldB x) = none) :
    exec (.ldB x) s = .next (s.storeBytes s.digitRange.first (decimalDigits (s.reg x))).advance :=
  checkedAccess_of_no_fault _ (faultOf_ldB s x ▸ h)

theorem exec_ldMemVx_of_no_fault {s : State} {x : Reg} (h : faultOf s (.ldMemVx x) = none) :
    exec (.ldMemVx x) s = .next (s.storeBytes (s.blockRange x).first (s.regsUpTo x)).advance :=
  checkedAccess_of_no_fault _ (faultOf_ldMemVx s x ▸ h)

theorem exec_ldVxMem_of_no_fault {s : State} {x : Reg} (h : faultOf s (.ldVxMem x) = none) :
    exec (.ldVxMem x) s = .next (s.loadRegsUpTo x (s.blockRange x).first).advance :=
  checkedAccess_of_no_fault _ (faultOf_ldVxMem s x ▸ h)

theorem lt_of_call_no_fault {s : State} {nnn : Addr12} (h : faultOf s (.call nnn) = none) : s.sp.val < 16 := by
  have hne : s.sp.val ≠ 16 := by simpa [faultOf_call] using h
  omega

theorem exists_pred_of_ret_no_fault {s : State} (h : faultOf s .ret = none) :
    ∃ k : Fin 16, s.sp.val = k.val + 1 := by
  have hne : s.sp.val ≠ 0 := by simpa [faultOf_ret] using h
  exact ⟨⟨s.sp.val - 1, by omega⟩, by simp only; omega⟩

end Sys2Proof.Machine
end

section
/-! PROOFS. The whole machine: the frame of every instruction, the sound timer that none reads, and the faults
(10_state.md R20 to R32, 60_exceptions.md R242 to R249). -/

namespace Sys2Proof.Machine

/-! ### Frames -/

/-- An instruction that does not fault changes PC and its footprint only. -/
theorem exec_unchanged_of_no_fault {i : Instr} {s : State} (h : faultOf s i = none) :
    ∃ t, exec i s = .next t ∧ Unchanged (footprintOf s i) s t := by
  have hrefl : Unchanged (footprintOf s i) s s := Unchanged.refl _ s
  cases i with
  | cls => exact ⟨_, rfl, (hrefl.setDisplay rfl _).advance⟩
  | ret =>
    obtain ⟨k, hk⟩ := exists_pred_of_ret_no_fault h
    exact ⟨_, exec_ret_of_pos hk, (hrefl.setStack rfl _ _).jump _⟩
  | call nnn => exact ⟨_, exec_call_of_lt nnn (lt_of_call_no_fault h), (hrefl.setStack rfl _ _).jump _⟩
  | jp | jpV0 => exact ⟨_, rfl, hrefl.jump _⟩
  | sys | nop8 | nopE | nopF => exact ⟨_, rfl, hrefl.advance⟩
  | seByte | sneByte | sne5Reg | sneReg | skp | sknp => exact ⟨_, rfl, hrefl.skipIf _⟩
  | ldByte | addByte | ldReg | orReg | andReg | xorReg | rnd | ldVxDt =>
    exact ⟨_, rfl, (hrefl.setReg List.mem_cons_self _).advance⟩
  | addReg | sub | shr | subn | shl =>
    exact ⟨_, rfl, (hrefl.setResultAndFlag List.mem_cons_self (.tail _ List.mem_cons_self) _ _).advance⟩
  | ldI | addI | ldF => exact ⟨_, rfl, (hrefl.setI rfl _).advance⟩
  | ldDtVx => exact ⟨_, rfl, (hrefl.setDt rfl _).advance⟩
  | ldStVx => exact ⟨_, rfl, (hrefl.setSt rfl _).advance⟩
  | ldVxK => exact ⟨_, rfl, (hrefl.setAwaitingKey rfl _).advance⟩
  | drw x y n =>
    exact ⟨_, exec_drw_of_no_fault h, ((hrefl.setDisplay rfl _).setReg List.mem_cons_self _).advance⟩
  | ldB x =>
    refine ⟨_, exec_ldB_of_no_fault h, (hrefl.storeBytes fun k hk => ?_).advance⟩
    exact first_add_mem_addresses hk
  | ldMemVx x =>
    refine ⟨_, exec_ldMemVx_of_no_fault h, (hrefl.storeBytes fun k hk => ?_).advance⟩
    rw [length_regsUpTo] at hk
    exact first_add_mem_addresses hk
  | ldVxMem x =>
    refine ⟨_, exec_ldVxMem_of_no_fault h, (hrefl.loadRegsUpTo (fun r hr => ?_) _).advance⟩
    simpa [footprintOf] using hr

/-- No instruction's own rule writes `halt`. -/
theorem footprintOf_halt (s : State) (i : Instr) : (footprintOf s i).halt = false := by
  cases i <;> rfl

/-! ### The sound timer -/

theorem faultOf_setSt (s : State) (i : Instr) (u : Byte) : faultOf { s with st := u } i = faultOf s i := by
  cases i <;> rfl

/-- FX18 raises no fault. -/
theorem footprintOf_st_of_fault {s : State} {i : Instr} {f : Fault} (h : faultOf s i = some f) :
    (footprintOf s i).st = false := by
  cases i with
  | ldStVx x => exact nomatch h
  | _ => rfl

/-- Without a fault: what an instruction writes does not come from ST, and FX18 alone writes ST. -/
theorem exec_setSt_of_no_fault {i : Instr} {s t : State} (u : Byte) (h : faultOf s i = none)
    (hexec : exec i s = .next t) :
    exec i { s with st := u } = .next { t with st := if (footprintOf s i).st then t.st else u } := by
  have h' : faultOf { s with st := u } i = none := (faultOf_setSt s i u).trans h
  cases i with
  | ret =>
    obtain ⟨k, hk⟩ := exists_pred_of_ret_no_fault h
    cases (exec_ret_of_pos hk).symm.trans hexec
    exact exec_ret_of_pos (s := { s with st := u }) hk
  | call nnn =>
    cases (exec_call_of_lt nnn (lt_of_call_no_fault h)).symm.trans hexec
    exact exec_call_of_lt nnn (lt_of_call_no_fault h')
  | drw x y n =>
    cases (exec_drw_of_no_fault h).symm.trans hexec
    exact exec_drw_of_no_fault h'
  | ldB x =>
    cases (exec_ldB_of_no_fault h).symm.trans hexec
    exact exec_ldB_of_no_fault h'
  | ldMemVx x =>
    cases (exec_ldMemVx_of_no_fault h).symm.trans hexec
    exact exec_ldMemVx_of_no_fault h'
  | ldVxMem x =>
    cases (exec_ldVxMem_of_no_fault h).symm.trans hexec
    exact exec_ldVxMem_of_no_fault h'
  | _ => cases hexec; rfl

/-! ### Faults -/

/-- The kinds of fault an instruction raises, and where the stack faults come from (R242 to R244). -/
theorem faultOf_cases {s : State} {i : Instr} {f : Fault} (h : faultOf s i = some f) :
    (∃ a, f = dataFault s i a) ∨
    (f = .stackOverflow s.pc (encode i) ∧ s.sp.val = 16 ∧ ∃ nnn, i = .call nnn) ∨
    (f = .stackUnderflow s.pc (encode i) ∧ s.sp.val = 0 ∧ i = .ret) := by
  have hdata {rg : Range} (hf : rg.fault.map (dataFault s i) = some f) : ∃ a, f = dataFault s i a := by
    obtain ⟨a, -, hfault⟩ := Option.map_eq_some_iff.1 hf
    exact ⟨a, hfault.symm⟩
  cases i with
  | drw x y n => exact .inl (hdata (faultOf_drw s x y n ▸ h))
  | ldB x => exact .inl (hdata (faultOf_ldB s x ▸ h))
  | ldMemVx x => exact .inl (hdata (faultOf_ldMemVx s x ▸ h))
  | ldVxMem x => exact .inl (hdata (faultOf_ldVxMem s x ▸ h))
  | call nnn =>
    rw [faultOf_call, Option.ite_none_right_eq_some] at h
    obtain ⟨hfull, hf⟩ := h
    cases hf
    exact .inr (.inl ⟨rfl, hfull, nnn, rfl⟩)
  | ret =>
    rw [faultOf_ret, Option.ite_none_right_eq_some] at h
    obtain ⟨hempty, hf⟩ := h
    cases hf
    exact .inr (.inr ⟨rfl, hempty, rfl⟩)
  | _ => exact nomatch h

/-- On a machine that is not halted, what an instruction leaves in `halt` is its fault. -/
theorem halt_exec {i : Instr} {s t : State} (hrun : s.halt = none) (hexec : exec i s = .next t) :
    t.halt = faultOf s i := by
  cases h : faultOf s i with
  | none =>
    obtain ⟨t', hexec', hframe⟩ := exec_unchanged_of_no_fault h
    cases hexec.symm.trans hexec'
    rw [hframe.halt (footprintOf_halt s i), hrun]
  | some f =>
    cases hexec.symm.trans (exec_of_fault h)
    rfl

/-- The fault of a bounds check, with the range P describes by its first and last address: the address reported is the
smallest one of the range outside memory. -/
theorem dataFault_iff {s : State} {i : Instr} {first count : Nat} {P : Nat → Nat → Prop}
    (hP : ∀ lo hi, P lo hi ↔ 0 < count ∧ lo = first ∧ hi + 1 = first + count) (a : Nat) (pc w : Word) :
    (Range.fault ⟨first, count⟩).map (dataFault s i) = some (.dataAddress a pc w) ↔ pc = s.pc ∧ w = encode i ∧
      ∃ lo hi, P lo hi ∧ lo ≤ a ∧ a ≤ hi ∧ 4096 ≤ a ∧ ∀ b, lo ≤ b → 4096 ≤ b → a ≤ b := by
  have hrange : Range.fault ⟨first, count⟩ = some a ↔
      ∃ lo hi, P lo hi ∧ lo ≤ a ∧ a ≤ hi ∧ 4096 ≤ a ∧ ∀ b, lo ≤ b → 4096 ≤ b → a ≤ b := by
    simp only [Range.fault, firstBadAddress_eq_ite, Option.ite_none_right_eq_some, Option.some.injEq, hP]
    constructor
    · rintro ⟨⟨hcount, hbad⟩, rfl⟩
      exact ⟨first, first + count - 1, ⟨hcount, rfl, by omega⟩, by omega, by omega, by omega, by omega⟩
    · rintro ⟨lo, hi, ⟨hcount, rfl, hhi⟩, hlo, hle, hbad, hleast⟩
      have hmax : a ≤ max lo 4096 := hleast _ (by omega) (by omega)
      exact ⟨⟨hcount, by omega⟩, by omega⟩
  rw [← hrange, Option.map_eq_some_iff]
  constructor
  · rintro ⟨b, hb, hfault⟩
    cases hfault
    exact ⟨rfl, rfl, hb⟩
  · rintro ⟨rfl, rfl, ha⟩
    exact ⟨a, ha, rfl⟩

end Sys2Proof.Machine

namespace Sys2Proof
open Machine

/-- Settles O44: an instruction that faults is `exec_of_fault`, one that does not is
`exec_unchanged_of_no_fault`. -/
theorem everyInstructionKeepsItsFrame : Obligations.EveryInstructionKeepsItsFrame := by
  unfold Obligations.EveryInstructionKeepsItsFrame
  intro i s
  cases h : faultOf s i with
  | none =>
    obtain ⟨t, hexec, hframe⟩ := exec_unchanged_of_no_fault h
    exact ⟨t, hexec, fun _ => ⟨hframe, hframe.halt (footprintOf_halt s i)⟩, nofun⟩
  | some f =>
    refine ⟨_, exec_of_fault h, nofun, fun g hg => ?_⟩
    cases hg
    rfl

/-- Settles O43: neither the fault of an instruction nor its effect depends on ST. -/
theorem soundTimerIsNeverRead : Obligations.SoundTimerIsNeverRead := by
  unfold Obligations.SoundTimerIsNeverRead
  intro i s t u hexec
  cases h : faultOf s i with
  | none => exact exec_setSt_of_no_fault u h hexec
  | some f =>
    cases hexec.symm.trans (exec_of_fault h)
    rw [footprintOf_st_of_fault h]
    exact exec_of_fault ((faultOf_setSt s i u).trans h)

/-- Settles O45: `halt` ends as `faultOf` says (`halt_exec`), which names a data fault for the four instructions with
an address range and a stack fault for CALL and RET. -/
theorem faultsAreExactlyTheListed : Obligations.FaultsAreExactlyTheListed := by
  unfold Obligations.FaultsAreExactlyTheListed
  intro i s t hrun hexec
  simp only [halt_exec hrun hexec]
  refine ⟨fun a pc w => ?data, fun pc w => ?overflow, fun pc w => ?underflow, fun a pc => ?fetch, fun len => ?load⟩
  case data =>
    cases i with
    | drw x y n => rw [faultOf_drw]; exact dataFault_iff (fun _ _ => Iff.rfl) a pc w
    | ldB x => rw [faultOf_ldB]; exact dataFault_iff (fun _ _ => by simp only [State.ea]; omega) a pc w
    | ldMemVx x => rw [faultOf_ldMemVx]; exact dataFault_iff (fun _ _ => by simp only [State.ea]; omega) a pc w
    | ldVxMem x => rw [faultOf_ldVxMem]; exact dataFault_iff (fun _ _ => by simp only [State.ea]; omega) a pc w
    | _ => simp [faultOf]
  case overflow =>
    constructor
    · intro h
      obtain ⟨a, hf⟩ | ⟨hf, hfull, hcall⟩ | ⟨hf, -⟩ := faultOf_cases h <;> cases hf
      exact ⟨rfl, rfl, hfull, hcall⟩
    · rintro ⟨rfl, rfl, hfull, nnn, rfl⟩
      rw [faultOf_call, if_pos hfull]
  case underflow =>
    constructor
    · intro h
      obtain ⟨a, hf⟩ | ⟨hf, -⟩ | ⟨hf, hempty, hret⟩ := faultOf_cases h <;> cases hf
      exact ⟨rfl, rfl, hempty, hret⟩
    · rintro ⟨rfl, rfl, hempty, rfl⟩
      rw [faultOf_ret, if_pos hempty]
  case fetch =>
    intro h
    obtain ⟨a, hf⟩ | ⟨hf, -⟩ | ⟨hf, -⟩ := faultOf_cases h <;> cases hf
  case load =>
    intro h
    obtain ⟨a, hf⟩ | ⟨hf, -⟩ | ⟨hf, -⟩ := faultOf_cases h <;> cases hf

end Sys2Proof
end

section
/-! PROOFS. Machine creation and the reset event (60_exceptions.md R245, 70_reset_and_hazards.md R270, R271). -/

namespace Sys2Proof.Machine

/-! ### The memory of a created machine (R20, R270) -/

theorem length_glyphs (glyphs : Vector Byte Config.glyphBytes) : glyphs.toList.length = 80 := Vector.length_toList

/-- Behind the glyph table an unlisted address reads as 0. -/
theorem unlisted_of_le {a : Nat} (h : 80 ≤ a) : Memory.unlisted a = 0 := dif_neg (Nat.not_lt.2 h)

theorem glyphMemory_wf (glyphs : Vector Byte Config.glyphBytes) :
    Memory.wf (Memory.writeList [] 0 glyphs.toList) = true :=
  Memory.writeList_wf (by rw [length_glyphs]; decide) rfl

theorem bootMemory_wf (glyphs : Vector Byte Config.glyphBytes) {image : List Byte} (h : image.length ≤ 3584) :
    Memory.wf (bootMemory glyphs image) = true := by
  have hfits : Config.progBase + image.length ≤ Config.memSize := by
    simp only [Config.progBase, Config.memSize]; omega
  exact Memory.writeList_wf hfits (glyphMemory_wf glyphs)

theorem read_bootMemory_glyph (glyphs : Vector Byte Config.glyphBytes) (image : List Byte) {a : Nat} (h : a < 80) :
    Memory.read (bootMemory glyphs image) a = glyphs[a] := by
  have hbelow : a < Config.progBase := by simp only [Config.progBase]; omega
  have hglyph := Memory.read_writeList_inside (m := []) (a := 0) (k := a) (us := glyphs.toList) rfl
    (by rw [length_glyphs]; decide) (by rw [length_glyphs]; exact h)
  rw [Nat.zero_add, Vector.getElem_toList] at hglyph
  rw [bootMemory, Memory.read_writeList_outside _ _ (.inl hbelow), hglyph]

theorem read_bootMemory_image (glyphs : Vector Byte Config.glyphBytes) {image : List Byte} {k : Nat}
    (hlength : image.length ≤ 3584) (h : k < image.length) :
    Memory.read (bootMemory glyphs image) (0x200 + k) = image[k] := by
  have hfits : Config.progBase + image.length ≤ Config.memSize := by
    simp only [Config.progBase, Config.memSize]; omega
  exact Memory.read_writeList_inside (glyphMemory_wf glyphs) hfits h

/-- Outside the image and the glyphs memory is 0. -/
theorem read_bootMemory_elsewhere (glyphs : Vector Byte Config.glyphBytes) {image : List Byte} {a : Nat}
    (hglyphs : 80 ≤ a) (himage : a < 0x200 ∨ 0x200 + image.length ≤ a) :
    Memory.read (bootMemory glyphs image) a = 0 := by
  have houtside : a < 0 ∨ 0 + glyphs.toList.length ≤ a := by rw [length_glyphs]; omega
  rw [bootMemory, Memory.read_writeList_outside _ _ himage, Memory.read_writeList_outside _ _ houtside]
  exact unlisted_of_le hglyphs

/-- The default table is what unlisted memory reads as, so that creation lists nothing for it. -/
theorem bootMemory_default : bootMemory defaultGlyphs [] = [] := by
  refine Memory.eq_of_read_eq (bootMemory_wf defaultGlyphs (Nat.zero_le _)) rfl fun a => ?_
  by_cases h : a < 80
  · rw [read_bootMemory_glyph defaultGlyphs [] h]
    exact (dif_pos h).symm
  · rw [read_bootMemory_elsewhere defaultGlyphs (Nat.not_lt.1 h) (by simp; omega)]
    exact (unlisted_of_le (Nat.not_lt.1 h)).symm

/-! ### The reset event -/

theorem step_of_reset {s : State} {image : Option (List Byte)} (h : s.nextEvent = .reset image) :
    step s = hostReset image s.takeEvent := by
  simp only [step, h, hostEvent]

theorem create_of_none (glyphs : Vector Byte Config.glyphBytes) :
    State.create glyphs none = .error (.loadError none) := rfl

/-- The next event and the schedule after it depend on the schedule alone. -/
theorem nextEvent_congr {s u : State} (hin : u.inputs = s.inputs) (hno : u.eventNo = s.eventNo) :
    u.nextEvent = s.nextEvent := by
  simp only [State.nextEvent, hin, hno]

theorem takeEvent_schedule_congr {s u : State} (hin : u.inputs = s.inputs) (hno : u.eventNo = s.eventNo) :
    u.takeEvent.inputs = s.takeEvent.inputs ∧ u.takeEvent.eventNo = s.takeEvent.eventNo := by
  simp only [State.takeEvent, hin]
  cases s.inputs with
  | nil => exact ⟨rfl, congrArg (· + 1) hno⟩
  | cons e rest => exact ⟨rfl, hno⟩

/-- A reset event with an image that fits answers the created machine with the schedule. -/
theorem step_of_reset_le {s : State} {image : List Byte} (hev : s.nextEvent = .reset (some image))
    (h : image.length ≤ 3584) :
    step s = .next { State.reset with
      mem := bootMemory defaultGlyphs image, inputs := s.takeEvent.inputs, eventNo := s.takeEvent.eventNo } := by
  rw [step_of_reset hev, hostReset_of_ok (create_of_le h)]

end Sys2Proof.Machine

namespace Sys2Proof
open Machine

/-- Settles O48: creation tests the length alone, and a reset event without a created machine is the fault. -/
theorem loadErrorForMissingOrOversizedImage : Obligations.LoadErrorForMissingOrOversizedImage := by
  unfold Obligations.LoadErrorForMissingOrOversizedImage
  intro glyphs image
  refine ⟨rfl, create_of_gt, fun _ h => ⟨_, create_of_le h⟩, fun s hev => ?_, fun s hev h => ?_⟩
  · rw [step_of_reset hev, hostReset_of_error (create_of_none defaultGlyphs)]
  · rw [step_of_reset hev, hostReset_of_error (create_of_gt h)]

/-- Settles O49: memory is read back region by region, and every other element is that of `State.reset`. -/
theorem resetPlacesGlyphsAndImage : Obligations.ResetPlacesGlyphsAndImage := by
  unfold Obligations.ResetPlacesGlyphsAndImage
  constructor
  · intro glyphs image h
    refine ⟨_, create_of_le h, bootMemory_wf glyphs h, fun a ha => read_bootMemory_glyph glyphs image ha,
      fun k hk => read_bootMemory_image glyphs h hk, fun a ha ha' => read_bootMemory_elsewhere glyphs ha ha',
      rfl, rfl, rfl, rfl, rfl, rfl, rfl, fun r => ?reg, fun k => ?stack, fun c r => ?cell, rfl⟩
    case reg => simp [State.reg, State.reset]
    case stack => simp [State.stackEntry, State.reset]
    case cell => exact cellOf_clearDisplay c r
  · rw [create_of_le (Nat.zero_le _), bootMemory_default]
    rfl

/-- Settles O50: the created machine is made of the image alone, and the schedule carried on is a function of the old
schedule. -/
theorem resetEventMakesANewMachine : Obligations.ResetEventMakesANewMachine := by
  unfold Obligations.ResetEventMakesANewMachine
  intro s image hev h
  refine ⟨⟨_, create_of_le h, step_of_reset_le hev h⟩, fun u hin hno => ?_⟩
  have hev' : u.nextEvent = .reset (some image) := (nextEvent_congr hin hno).trans hev
  obtain ⟨hin', hno'⟩ := takeEvent_schedule_congr hin hno
  rw [step_of_reset_le hev h, step_of_reset_le hev' h, hin', hno']

end Sys2Proof
end

section
/-! PROOFS. The tick of running and halted machines, progress, and the invariant of every step (40_sequencer.md R100
to R106, 60_exceptions.md R246, R247). -/

namespace Sys2Proof.Machine

/-! ### Ticks -/

@[simp] theorem State.fetchWord_sample (s : State) (keys : Word) (rnd : Byte) :
    (s.takeEvent.sample keys rnd).fetchWord = s.fetchWord := by
  simp only [State.fetchWord, State.byte_sample, State.sample_pc, State.takeEvent_byte, State.takeEvent_pc]

/-- The tick of a running machine is one instruction, on the state after the sample. -/
theorem step_of_running_tick {s : State} {keys : Word} {rnd : Byte} (hrun : s.halt = none)
    (hwait : s.awaitingKey = none) (hev : s.nextEvent = .tick keys rnd) :
    step s = execute (s.takeEvent.sample keys rnd) := by
  rw [step_of_tick hev, tick_of_running (by simpa using hrun) (by simpa using hwait)]

theorem timerTick_of_halted {s : State} {f : Fault} (h : s.halt = some f) : s.timerTick = s := by
  simp only [State.timerTick, h]

theorem timerTick_of_not_halted {s : State} (h : s.halt = none) :
    s.timerTick = { s with dt := countDown s.dt, st := countDown s.st } := by
  simp only [State.timerTick, h]

/-- Every tick answers a next state. -/
theorem exists_tick_next (keys : Word) (rnd : Byte) (s : State) : ∃ t, tick keys rnd s = .next t := by
  cases h : s.halt with
  | some f => exact ⟨s, tick_of_halted h keys rnd⟩
  | none =>
    obtain ⟨t, ht, -⟩ := tick_keyboard h keys rnd
    exact ⟨t, ht⟩

end Sys2Proof.Machine

namespace Sys2Proof
open Machine

/-- Settles O6: the two bytes at PC are the word that the tick fetches after the sample. -/
theorem stepRunsDecodedInstruction : Obligations.StepRunsDecodedInstruction := by
  unfold Obligations.StepRunsDecodedInstruction
  intro s keys rnd i hrun hwait hev hpc hdecode
  have hpc' : (s.takeEvent.sample keys rnd).pc.toNat + 1 < Config.memSize := by simpa using hpc
  have hword : decode s.fetchWord = i := by
    rw [decodeBytes_two] at hdecode
    cases hdecode
    rfl
  rw [step_of_running_tick hrun hwait hev, execute_of_fetchable hpc', State.fetchWord_sample, hword]

/-- Settles O7: the address reported is the larger one of PC and 4096. -/
theorem fetchOutsideMemoryHalts : Obligations.FetchOutsideMemoryHalts := by
  unfold Obligations.FetchOutsideMemoryHalts
  intro s keys rnd hrun hwait hev hpc
  have hpc' : ¬ (s.takeEvent.sample keys rnd).pc.toNat + 1 < Config.memSize := by
    simp only [State.sample_pc, State.takeEvent_pc, Config.memSize]; omega
  have haddr : max s.pc.toNat Config.memSize = if 4096 ≤ s.pc.toNat then s.pc.toNat else 4096 := by
    simp only [Config.memSize]; split <;> omega
  rw [step_of_running_tick hrun hwait hev, execute_of_unfetchable hpc']
  simp only [State.sample_pc, State.takeEvent_pc, haddr]

/-- Settles O9: of the three host events the tick and the timer tick keep a halted machine as it is. -/
theorem haltedMachineChangesOnlyByReset : Obligations.HaltedMachineChangesOnlyByReset := by
  unfold Obligations.HaltedMachineChangesOnlyByReset
  intro s f hhalt
  have hhalt' : s.takeEvent.halt = some f := by rw [State.takeEvent_halt, hhalt]
  have htick {keys rnd} (hev : s.nextEvent = .tick keys rnd) : step s = .next s.takeEvent := by
    rw [step_of_tick hev, tick_of_halted hhalt']
  have htimer (hev : s.nextEvent = .timerTick) : step s = .next s.takeEvent := by
    simp only [step, hev, hostEvent, timerTick_of_halted hhalt']
  refine ⟨fun keys rnd => htick, htimer, fun t hstep hrun => ?_⟩
  have hchanged : step s ≠ .next s.takeEvent := by
    rw [hstep]
    rintro ⟨⟩
    exact nomatch hrun.symm.trans hhalt'
  cases hev : s.nextEvent with
  | tick keys rnd => exact absurd (htick hev) hchanged
  | timerTick => exact absurd (htimer hev) hchanged
  | reset img => exact ⟨img, rfl⟩

/-- Settles O10: ticks and timer ticks are total, and a reset is the creation of a machine. -/
theorem onlyALoadErrorStopsTheMachine : Obligations.OnlyALoadErrorStopsTheMachine := by
  unfold Obligations.OnlyALoadErrorStopsTheMachine
  intro s
  obtain ⟨keys, rnd, -, hstep⟩ | ⟨-, hstep⟩ | ⟨img, hev, hstep⟩ := step_cases s
  · obtain ⟨t, ht⟩ := exists_tick_next keys rnd s.takeEvent
    exact .inl ⟨t, hstep.trans ht⟩
  · exact .inl ⟨_, hstep⟩
  · cases img with
    | none =>
      exact .inr ⟨none, none, hev, hstep.trans (hostReset_of_error (create_of_none _)), .inl ⟨rfl, rfl⟩⟩
    | some image =>
      by_cases h : image.length ≤ 3584
      · exact .inl ⟨_, step_of_reset_le hev h⟩
      · have hlong : 3584 < image.length := Nat.not_le.1 h
        exact .inr ⟨some image, some image.length, hev, hstep.trans (hostReset_of_error (create_of_gt hlong)),
          .inr ⟨image, rfl, hlong, rfl⟩⟩

end Sys2Proof

namespace Sys2Proof.Machine

/-! ### The bounds that an instruction keeps -/

/-- The part of the invariant that does not speak of faults: memory in canonical form, PC and the stack entries within
their bounds (R106). -/
structure State.Bounded (s : State) : Prop where
  mem : s.mem.wf = true
  pc : s.pc.toNat ≤ 0x10FE
  stack : ∀ k, (s.stackEntry k).toNat ≤ 4096

/-- With memory and stack as before the PC alone has to be looked at. -/
theorem State.Bounded.of_pc {s t : State} (h : s.Bounded) (hmem : t.mem = s.mem) (hstack : t.stack = s.stack)
    (hpc : t.pc.toNat ≤ 0x10FE) : t.Bounded where
  mem := by rw [hmem]; exact h.mem
  pc := hpc
  stack k := by rw [State.stackEntry, hstack]; exact h.stack k

theorem toNat_npc {s : State} (h : s.pc.toNat + 1 < 4096) : s.npc.toNat = s.pc.toNat + 2 := by
  have hfits : s.pc.toNat + 2 < 2 ^ 16 := by omega
  exact (BitVec.toNat_add s.pc 2).trans (Nat.mod_eq_of_lt hfits)

/-- The advance and the skip of a fetched instruction (R105, R107). -/
theorem toNat_npc_le {s : State} (h : s.pc.toNat + 1 < 4096) : s.npc.toNat ≤ 0x10FE := by
  rw [toNat_npc h]; omega

theorem State.Bounded.of_advance {s t : State} (h : s.Bounded) (hpc : s.pc.toNat + 1 < 4096) (hmem : t.mem = s.mem)
    (hstack : t.stack = s.stack) (hnext : t.pc = s.npc) : t.Bounded :=
  h.of_pc hmem hstack (hnext ▸ toNat_npc_le hpc)

theorem toNat_skip_le {s : State} (b : Bool) (h : s.pc.toNat + 1 < 4096) : (s.skipIf b).pc.toNat ≤ 0x10FE := by
  have hnpc := toNat_npc h
  have hskip : (s.npc + 2).toNat = s.npc.toNat + 2 := by
    have hfits : s.npc.toNat + 2 < 2 ^ 16 := by omega
    exact (BitVec.toNat_add s.npc 2).trans (Nat.mod_eq_of_lt hfits)
  cases b with
  | false => exact toNat_npc_le h
  | true => rw [State.skipIf_pc, if_pos rfl, hskip]; omega

theorem toNat_addrWord_le (nnn : Addr12) : (addrWord nnn).toNat ≤ 0x10FE := by
  rw [toNat_addrWord]; omega

/-- R118: the target is the exact sum, which fits in 16 bits. -/
theorem toNat_indexedTarget (nnn : Addr12) (u : Byte) : (indexedTarget nnn u).toNat = nnn.toNat + u.toNat := by
  have hfits : nnn.toNat + u.toNat < 2 ^ 16 := by omega
  rw [indexedTarget, BitVec.toNat_add, BitVec.toNat_setWidth_of_le (by decide),
    BitVec.toNat_setWidth_of_le (by decide), Nat.mod_eq_of_lt hfits]

theorem toNat_indexedTarget_le (nnn : Addr12) (u : Byte) : (indexedTarget nnn u).toNat ≤ 0x10FE := by
  rw [toNat_indexedTarget]; omega

theorem stackEntry_called {s : State} (nnn : Addr12) (h : s.sp.val < 16) (k : Fin 16) :
    (s.called nnn h).stackEntry k = if k.val = s.sp.val then s.npc else s.stackEntry k := by
  simp [State.called, State.stackEntry, State.jump, Vector.getElem_set, eq_comm]

theorem range_fits_of_no_fault {rg : Range} {i : Instr} {s : State} (hcount : 0 < rg.count)
    (h : rg.fault.map (dataFault s i) = none) : rg.first + rg.count ≤ Config.memSize := by
  have hlast := firstBadAddress_eq_none.1 (Option.map_eq_none_iff.1 h) (rg.count - 1) (by omega)
  omega

/-- A store that passed its bounds check keeps the bounds. -/
theorem State.Bounded.storeBytes {s : State} (h : s.Bounded) (hpc : s.pc.toNat + 1 < 4096) {a : Nat}
    {us : List Byte} (hfits : a + us.length ≤ Config.memSize) : ((s.storeBytes a us).advance).Bounded where
  mem := Memory.writeList_wf hfits h.mem
  pc := toNat_npc_le hpc
  stack := h.stack

/-- An instruction that was fetched and does not fault keeps the bounds. -/
theorem exec_bounded_of_no_fault {i : Instr} {s t : State} (hs : s.Bounded) (hpc : s.pc.toNat + 1 < 4096)
    (h : faultOf s i = none) (hexec : exec i s = .next t) : t.Bounded := by
  cases i with
  | ret =>
    obtain ⟨k, hk⟩ := exists_pred_of_ret_no_fault h
    cases (exec_ret_of_pos hk).symm.trans hexec
    exact hs.of_pc rfl rfl ((hs.stack k).trans (by decide))
  | call nnn =>
    have hroom := lt_of_call_no_fault h
    cases (exec_call_of_lt nnn hroom).symm.trans hexec
    refine ⟨hs.mem, toNat_addrWord_le nnn, fun k => ?_⟩
    rw [stackEntry_called]
    split
    · rw [toNat_npc hpc]; omega
    · exact hs.stack k
  | jp nnn => cases hexec; exact hs.of_pc rfl rfl (toNat_addrWord_le nnn)
  | jpV0 nnn => cases hexec; exact hs.of_pc rfl rfl (toNat_indexedTarget_le nnn _)
  | seByte | sneByte | sne5Reg | sneReg | skp | sknp =>
    cases hexec
    exact hs.of_pc rfl rfl (toNat_skip_le _ hpc)
  | drw x y n =>
    cases (exec_drw_of_no_fault h).symm.trans hexec
    exact hs.of_advance hpc rfl rfl rfl
  | ldB x =>
    cases (exec_ldB_of_no_fault h).symm.trans hexec
    exact hs.storeBytes hpc (range_fits_of_no_fault (Nat.succ_pos _) (faultOf_ldB s x ▸ h))
  | ldMemVx x =>
    cases (exec_ldMemVx_of_no_fault h).symm.trans hexec
    refine hs.storeBytes hpc ?_
    rw [length_regsUpTo]
    exact range_fits_of_no_fault (Nat.succ_pos _) (faultOf_ldMemVx s x ▸ h)
  | ldVxMem x =>
    cases (exec_ldVxMem_of_no_fault h).symm.trans hexec
    exact hs.of_advance hpc (by simp) (by simp) (by simp)
  | _ => cases hexec; exact hs.of_advance hpc rfl rfl rfl

/-! ### The invariant -/

theorem State.Inv.bounded {s : State} (h : s.Inv) : s.Bounded := ⟨h.mem, h.pc, h.stack⟩

theorem State.Bounded.inv_of_running {s : State} (h : s.Bounded) (hrun : s.halt = none) : s.Inv where
  mem := h.mem
  pc := h.pc
  stack := h.stack
  halt _ hf := nomatch hrun.symm.trans hf
  wait := .inr hrun

/-- Which fault is due depends on neither the host's inputs nor what is recorded already. -/
theorem pendingFault_congr {s t : State} (hmem : t.mem = s.mem) (hpc : t.pc = s.pc) (hi : t.i = s.i)
    (hsp : t.sp = s.sp) : t.pendingFault = s.pendingFault := by
  have hfault (i : Instr) : faultOf t i = faultOf s i := by
    cases i <;> simp only [faultOf, hpc, hi, hsp]
  simp only [State.pendingFault, State.fetchWord, State.byte, hmem, hpc, hfault]

/-- The invariant speaks of no register, timer, display or keyboard, and not of the host's inputs. -/
theorem State.Inv.congr {s t : State} (h : s.Inv) (hmem : t.mem = s.mem) (hpc : t.pc = s.pc) (hi : t.i = s.i)
    (hsp : t.sp = s.sp) (hstack : t.stack = s.stack) (hhalt : t.halt = s.halt)
    (hwait : t.awaitingKey = s.awaitingKey) : t.Inv where
  mem := by rw [hmem]; exact h.mem
  pc := by rw [hpc]; exact h.pc
  stack k := by rw [State.stackEntry, hstack]; exact h.stack k
  halt f hf := by rw [pendingFault_congr hmem hpc hi hsp]; exact h.halt f (hhalt ▸ hf)
  wait := by rw [hwait, hhalt]; exact h.wait

theorem State.Inv.takeEvent {s : State} (h : s.Inv) : s.takeEvent.Inv := by
  apply h.congr <;> simp

theorem State.Inv.sample {s : State} (h : s.Inv) (keys : Word) (rnd : Byte) : (s.sample keys rnd).Inv :=
  h.congr rfl rfl rfl rfl rfl rfl rfl

/-- A machine that halts outside a key wait with the fault that is due. -/
theorem State.Inv.halted {s : State} (h : s.Inv) (hwait : s.awaitingKey = none) {f : Fault}
    (hf : s.pendingFault = some f) : State.Inv { s with halt := some f } where
  mem := h.mem
  pc := h.pc
  stack := h.stack
  halt g hg := by
    cases hg
    exact (pendingFault_congr rfl rfl rfl rfl).trans hf
  wait := .inl hwait

theorem execute_inv {s t : State} (h : s.Inv) (hrun : s.halt = none) (hwait : s.awaitingKey = none)
    (hexec : execute s = .next t) : t.Inv := by
  by_cases hpc : s.pc.toNat + 1 < 4096
  · have hpending : s.pendingFault = faultOf s (decode s.fetchWord) := if_neg (by omega)
    rw [execute_of_fetchable hpc] at hexec
    cases hf : faultOf s (decode s.fetchWord) with
    | none =>
      have hhalt : t.halt = none := (halt_exec hrun hexec).trans hf
      exact (exec_bounded_of_no_fault h.bounded hpc hf hexec).inv_of_running hhalt
    | some f =>
      cases (exec_of_fault hf).symm.trans hexec
      exact h.halted hwait (hpending.trans hf)
  · cases (execute_of_unfetchable hpc).symm.trans hexec
    exact h.halted hwait (if_pos (by omega))

/-- A key wait is no halt, and its end writes a register and the wait state alone (R221, R222). -/
theorem keyWaitStep_inv {s : State} (h : s.Inv) (hrun : s.halt = none) (r : Reg) : (s.keyWaitStep r).Inv := by
  cases hkey : lowestSetBit s.keyboard with
  | none => rw [keyWaitStep_of_none hkey]; exact h
  | some k =>
    rw [keyWaitStep_of_some hkey]
    have hbounded : State.Bounded { s.setReg r (keyByte k) with awaitingKey := none } := h.bounded.of_pc rfl rfl h.pc
    exact hbounded.inv_of_running hrun

theorem tick_inv {s t : State} (h : s.Inv) {keys : Word} {rnd : Byte} (htick : tick keys rnd s = .next t) :
    t.Inv := by
  cases hhalt : s.halt with
  | some f =>
    cases (tick_of_halted hhalt keys rnd).symm.trans htick
    exact h
  | none =>
    cases hwait : s.awaitingKey with
    | some r =>
      cases (tick_of_waiting hhalt hwait keys rnd).symm.trans htick
      exact keyWaitStep_inv (h.sample keys rnd) hhalt r
    | none =>
      rw [tick_of_running hhalt hwait] at htick
      exact execute_inv (h.sample keys rnd) hhalt hwait htick

theorem timerTick_inv {s : State} (h : s.Inv) : s.timerTick.Inv := by
  cases hhalt : s.halt with
  | some f => rw [timerTick_of_halted hhalt]; exact h
  | none => rw [timerTick_of_not_halted hhalt]; exact h.congr rfl rfl rfl rfl rfl rfl rfl

theorem reset_bounded : State.reset.Bounded where
  mem := reset_mem_wf
  pc := by decide
  stack k := by simp [State.stackEntry, State.reset]

theorem hostReset_inv {s t : State} {img : Option (List Byte)} (h : hostReset img s = .next t) : t.Inv := by
  cases img with
  | none => exact nomatch (hostReset_of_error (create_of_none _)).symm.trans h
  | some image =>
    by_cases hlength : image.length ≤ 3584
    · cases (hostReset_of_ok (create_of_le hlength)).symm.trans h
      have hbounded : State.Bounded { State.reset with
          mem := bootMemory defaultGlyphs image, inputs := s.inputs, eventNo := s.eventNo } :=
        ⟨bootMemory_wf defaultGlyphs hlength, reset_bounded.pc, reset_bounded.stack⟩
      exact hbounded.inv_of_running rfl
    · exact nomatch (hostReset_of_error (create_of_gt (Nat.not_le.1 hlength))).symm.trans h

end Sys2Proof.Machine

namespace Sys2Proof
open Machine

/-- Settles O46, event by event: taking the event leaves the invariant alone, and each of the three events keeps
it. -/
theorem everyStepKeepsTheInvariant : Obligations.EveryStepKeepsTheInvariant := by
  unfold Obligations.EveryStepKeepsTheInvariant
  intro s t hs hstep
  obtain ⟨keys, rnd, -, hevent⟩ | ⟨-, hevent⟩ | ⟨img, -, hevent⟩ := step_cases s
  · exact tick_inv hs.takeEvent (hevent.symm.trans hstep)
  · cases hevent.symm.trans hstep
    exact timerTick_inv hs.takeEvent
  · exact hostReset_inv (hevent.symm.trans hstep)

/-- Settles O47: the machine after reset is within its bounds and not halted. -/
theorem resetHasTheInvariant : Obligations.ResetHasTheInvariant := by
  unfold Obligations.ResetHasTheInvariant
  exact reset_bounded.inv_of_running rfl

end Sys2Proof
end

section
/-! PROOFS. Control flow (40_sequencer.md): the indexed jump (R118), call and return (R110, R113) and the register
skips (R116, R117). -/

namespace Sys2Proof.Machine

/-- The word a stack overflow reports (R243). -/
theorem encode_call (nnn : Addr12) : encode (.call nnn) = 0x2000 + nnn.setWidth 16 := by
  have hfits : 0x2000 + nnn.toNat < 2 ^ 16 := by omega
  refine BitVec.eq_of_toNat_eq ?_
  calc (encode (.call nnn)).toNat
    _ = 0x2 <<< 12 ||| nnn.toNat := BitVec.toNat_append 0x2#4 nnn
    _ = 0x2000 + nnn.toNat := (Nat.shiftLeft_add_eq_or_of_lt nnn.isLt 0x2).symm
    _ = (0x2000 + nnn.setWidth 16 : Word).toNat := by
      rw [BitVec.toNat_add, BitVec.toNat_setWidth_of_le (by decide)]
      exact (Nat.mod_eq_of_lt hfits).symm

/-- A call writes the stack and PC alone. -/
theorem unchanged_called {s : State} (nnn : Addr12) (h : s.sp.val < 16) :
    Unchanged { stack := true } s (s.called nnn h) :=
  ((Unchanged.refl _ s).setStack rfl _ _).jump _

/-- A return writes SP and PC alone. -/
theorem unchanged_returned (s : State) (k : Fin 16) : Unchanged { stack := true } s (s.returned k) :=
  ((Unchanged.refl _ s).setStack rfl _ _).jump _

theorem stackEntry_returned (s : State) (k j : Fin 16) : (s.returned k).stackEntry j = s.stackEntry j := rfl

end Sys2Proof.Machine

namespace Sys2Proof
open Machine

/-- Settles O12: the sum of a 12-bit and an 8-bit number is exact in 16 bits. -/
theorem indexedJumpAddsV0 : Obligations.IndexedJumpAddsV0 := by
  unfold Obligations.IndexedJumpAddsV0
  intro s nnn
  exact ⟨s.jump (indexedTarget nnn (s.reg 0)), rfl, toNat_indexedTarget nnn _, unchanged_jump s _⟩

/-- Settles O13: with room the call is `State.called`, without it is a fault. -/
theorem callPushesReturnAddress : Obligations.CallPushesReturnAddress := by
  unfold Obligations.CallPushesReturnAddress
  intro s nnn
  constructor
  · intro h
    refine ⟨_, exec_call_of_lt nnn h, ?_, rfl, toNat_addrWord nnn, fun k hk => ?_, unchanged_called nnn h⟩
    · rw [stackEntry_called, if_pos rfl]
      rfl
    · rw [stackEntry_called, if_neg hk]
  · intro h
    rw [← encode_call]
    exact next_of_fault (by rw [faultOf_call, if_pos h])

/-- Settles O14: with an entry below SP the return is `State.returned`, without it is a fault. -/
theorem returnPopsReturnAddress : Obligations.ReturnPopsReturnAddress := by
  unfold Obligations.ReturnPopsReturnAddress
  intro s
  constructor
  · intro k hk
    exact ⟨_, exec_ret_of_pos hk, rfl, rfl, stackEntry_returned s k, unchanged_returned s k⟩
  · intro h
    exact next_of_fault (f := .stackUnderflow s.pc 0x00EE) (by rw [faultOf_ret, if_pos h]; rfl)

/-- Settles O15: the return pops the entry that the call pushed. -/
theorem returnAfterCallComesBack : Obligations.ReturnAfterCallComesBack := by
  unfold Obligations.ReturnAfterCallComesBack
  intro s t u nnn hroom hcall hsp hstack
  cases (exec_call_of_lt nnn hroom).symm.trans hcall
  have husp : u.sp.val = s.sp.val + 1 := congrArg Fin.val hsp
  have hentry : u.stackEntry ⟨s.sp.val, hroom⟩ = s.npc := by
    have hpushed := stackEntry_called nnn hroom ⟨s.sp.val, hroom⟩
    rwa [if_pos rfl, State.stackEntry, ← hstack] at hpushed
  exact ⟨_, exec_ret_of_pos (k := ⟨s.sp.val, hroom⟩) husp, hentry, rfl, stackEntry_returned u _,
    unchanged_returned u _⟩

/-- Settles O17: both families are the skip of `next_skipIf` on one test, which x = y never meets. -/
theorem registerSkipsOnInequality : Obligations.RegisterSkipsOnInequality := by
  unfold Obligations.RegisterSkipsOnInequality
  intro s x y n
  have hequal : exec (.sne5Reg x x n) s = .next (s.skipIf (s.reg x != s.reg x)) := rfl
  refine ⟨next_skipIf s bne_iff_ne, rfl, ?_⟩
  rw [hequal, bne_self_eq_false]
  rfl

end Sys2Proof
end

section
/-! PROOFS. The ALU (41_alu.md): assignment and the bitwise operations (R144 to R147), the five flag writers (R143,
R148 to R152) and the random byte (R154). -/

namespace Sys2Proof.Machine

/-! ### Flags -/

theorem flagByte_decide (P : Prop) [Decidable P] : flagByte (decide P) = if P then 1 else 0 := by
  simp only [flagByte, decide_eq_true_eq]

theorem toNat_flagByte_decide (P : Prop) [Decidable P] : (flagByte (decide P)).toNat = if P then 1 else 0 := by
  rw [flagByte_decide]
  split <;> rfl

theorem shiftedOutRight_eq (u : Byte) : shiftedOutRight u = flagByte (decide (u.toNat % 2 = 1)) := by
  rw [shiftedOutRight, BitVec.getLsbD, Nat.testBit_zero]

theorem shiftedOutLeft_eq (u : Byte) : shiftedOutLeft u = flagByte (decide (128 ≤ u.toNat)) := by
  have hbit : u.toNat / 2 ^ 7 % 2 = 1 ↔ 128 ≤ u.toNat := by omega
  rw [shiftedOutLeft, BitVec.getLsbD, Nat.testBit_eq_decide_div_mod_eq, decide_eq_decide.2 hbit]

theorem toNat_shiftedOutRight (u : Byte) : (shiftedOutRight u).toNat = u.toNat % 2 := by
  rw [shiftedOutRight_eq, toNat_flagByte_decide]
  split <;> omega

theorem toNat_shiftedOutLeft (u : Byte) : (shiftedOutLeft u).toNat = u.toNat / 128 := by
  rw [shiftedOutLeft_eq, toNat_flagByte_decide]
  split <;> omega

/-- The difference modulo 2^8, without the modulus. -/
theorem toNat_sub_byte (a b : Byte) :
    (a - b).toNat = if a.toNat < b.toNat then a.toNat + 256 - b.toNat else a.toNat - b.toNat := by
  rw [BitVec.toNat_sub]
  split <;> omega

/-! ### The flag writers -/

/-- An instruction that writes a result to V[x] and then a flag to VF (R143): V[x] reads the result unless x is VF, VF
reads the flag, and nothing else changes. -/
theorem next_setResultAndFlag_advance (s : State) (x : Reg) (u f : Byte) :
    ∃ t, (.next (s.setResultAndFlag x u f).advance : Host.Outcome State Fault Refusal) = .next t ∧
      (x ≠ vf → t.reg x = u) ∧ t.reg vf = f ∧ t.pc = s.npc ∧ Unchanged { regs := [x, vf] } s t := by
  refine ⟨_, rfl, fun hx => ?_, ?_, rfl, ?_⟩
  · rw [State.reg_advance, reg_setResultAndFlag, if_neg hx, if_pos rfl]
  · rw [State.reg_advance, reg_setResultAndFlag, if_pos rfl]
  · exact ((Unchanged.refl _ s).setResultAndFlag List.mem_cons_self (.tail _ List.mem_cons_self) u f).advance

/-- With VF as the destination the flag overwrites the result. -/
theorem setResultAndFlag_vf (s : State) (u f : Byte) : s.setResultAndFlag vf u f = s.setReg vf f := by
  simp [State.setResultAndFlag, State.setReg]

theorem next_setResultAndFlag_vf_advance (s : State) (u : Byte) {f g : Byte} (h : f = g) :
    ∃ t, (.next (s.setResultAndFlag vf u f).advance : Host.Outcome State Fault Refusal) = .next t ∧
      t = { s.setReg vf g with pc := s.npc } := by
  rw [setResultAndFlag_vf, h]
  exact ⟨_, rfl, rfl⟩

end Sys2Proof.Machine

namespace Sys2Proof
open Machine

/-- Settles O20: each follows from `next_setReg_advance`, with the bits of its operation. -/
theorem assignAndBitwise : Obligations.AssignAndBitwise := by
  unfold Obligations.AssignAndBitwise
  intro s x y
  have hbits (u : Byte) (b : Nat → Bool) (hu : ∀ k, u.getLsbD k = b k) :
      ∃ t, (.next (s.setReg x u).advance : Host.Outcome State Fault Refusal) = .next t ∧
        (∀ k, (t.reg x).getLsbD k = b k) ∧ t.pc = s.npc ∧ Unchanged { regs := [x] } s t := by
    obtain ⟨t, hexec, hreg, hpc, hframe⟩ := next_setReg_advance s x u
    exact ⟨t, hexec, fun k => by rw [hreg, hu], hpc, hframe⟩
  exact ⟨next_setReg_advance s x (s.reg y), hbits _ _ fun k => BitVec.getLsbD_or, hbits _ _ fun k => BitVec.getLsbD_and,
    hbits _ _ fun k => BitVec.getLsbD_xor⟩

/-- Settles O21: `next_setResultAndFlag_advance` with the sum and its carry. -/
theorem addWithCarryOut : Obligations.AddWithCarryOut := by
  unfold Obligations.AddWithCarryOut
  intro s x y
  obtain ⟨t, hexec, hreg, hflag, hpc, hframe⟩ :=
    next_setResultAndFlag_advance s x (s.reg x + s.reg y) (carryFlag (s.reg x) (s.reg y))
  refine ⟨t, hexec, fun hx => ?_, ?_, hpc, hframe⟩
  · rw [hreg hx, BitVec.toNat_add]
  · rw [hflag, carryFlag, flagByte_decide]

/-- Settles O22: `next_setResultAndFlag_advance` with V[x] - V[y]. -/
theorem subtractSetsNoBorrow : Obligations.SubtractSetsNoBorrow := by
  unfold Obligations.SubtractSetsNoBorrow
  intro s x y
  obtain ⟨t, hexec, hreg, hflag, hpc, hframe⟩ :=
    next_setResultAndFlag_advance s x (s.reg x - s.reg y) (noBorrowFlag (s.reg x) (s.reg y))
  refine ⟨t, hexec, fun hx => ?_, ?_, hpc, hframe⟩
  · rw [hreg hx, toNat_sub_byte]
  · rw [hflag, noBorrowFlag, flagByte_decide]

/-- Settles O23: `next_setResultAndFlag_advance` with V[y] - V[x]. -/
theorem reverseSubtractSetsNoBorrow : Obligations.ReverseSubtractSetsNoBorrow := by
  unfold Obligations.ReverseSubtractSetsNoBorrow
  intro s x y
  obtain ⟨t, hexec, hreg, hflag, hpc, hframe⟩ :=
    next_setResultAndFlag_advance s x (s.reg y - s.reg x) (noBorrowFlag (s.reg y) (s.reg x))
  refine ⟨t, hexec, fun hx => ?_, ?_, hpc, hframe⟩
  · rw [hreg hx, toNat_sub_byte]
  · rw [hflag, noBorrowFlag, flagByte_decide]

/-- Settles O24: `next_setResultAndFlag_advance` with V[x] shifted and the bit that falls out; y stands in neither. -/
theorem shiftsMoveOneBitToVF : Obligations.ShiftsMoveOneBitToVF := by
  unfold Obligations.ShiftsMoveOneBitToVF
  intro s x y
  refine ⟨?right, ?left, fun z => ⟨rfl, rfl⟩⟩
  case right =>
    obtain ⟨t, hexec, hreg, hflag, hpc, hframe⟩ :=
      next_setResultAndFlag_advance s x (s.reg x >>> 1) (shiftedOutRight (s.reg x))
    refine ⟨t, hexec, fun hx => ?_, by rw [hflag, toNat_shiftedOutRight], hpc, hframe⟩
    rw [hreg hx, BitVec.toNat_ushiftRight, Nat.shiftRight_one]
  case left =>
    obtain ⟨t, hexec, hreg, hflag, hpc, hframe⟩ :=
      next_setResultAndFlag_advance s x (s.reg x <<< 1) (shiftedOutLeft (s.reg x))
    refine ⟨t, hexec, fun hx => ?_, by rw [hflag, toNat_shiftedOutLeft], hpc, hframe⟩
    rw [hreg hx, BitVec.toNat_shiftLeft, Nat.shiftLeft_eq]

/-- Settles O25: the flag overwrites the result (`next_setResultAndFlag_vf_advance`), and each flag tests the old
operands. -/
theorem flagIsWrittenLast : Obligations.FlagIsWrittenLast := by
  unfold Obligations.FlagIsWrittenLast
  intro s y
  refine ⟨next_setResultAndFlag_vf_advance s _ ?add, next_setResultAndFlag_vf_advance s _ rfl,
    next_setResultAndFlag_vf_advance s _ rfl, next_setResultAndFlag_vf_advance s _ ?shr,
    next_setResultAndFlag_vf_advance s _ ?shl⟩
  case add => rfl
  case shr => exact shiftedOutRight_eq _
  case shl => exact shiftedOutLeft_eq _

/-- Settles O26: `next_setReg_advance` with the masked byte, and a step on a tick runs the instruction with the byte of
the tick (O6). -/
theorem randomByteOfTheTickIsMasked : Obligations.RandomByteOfTheTickIsMasked := by
  unfold Obligations.RandomByteOfTheTickIsMasked
  intro s x nn
  refine ⟨next_setReg_advance s x (s.rnd &&& nn), fun keys rnd hrun hwait hev hpc hword => ?_⟩
  have hdecode : decode s.fetchWord = .rnd x nn := by rw [hword, decodeOfEncodeIsIdentity _ rfl]
  have hstep : step s = exec (.rnd x nn) (s.takeEvent.sample keys rnd) :=
    stepRunsDecodedInstruction s keys rnd _ hrun hwait hev hpc (by rw [decodeBytes_two, ← hdecode]; rfl)
  obtain ⟨t, hexec, hreg, -⟩ := next_setReg_advance (s.takeEvent.sample keys rnd) x (rnd &&& nn)
  exact ⟨t, hstep.trans hexec, hreg⟩

end Sys2Proof
end

section
/-! PROOFS. The index register and memory (42_index_memory.md): the addition to I (R171), the decimal digits (R173),
and the block transfers (R174, R175) with what is read back from them (R63, R281). -/

namespace Sys2Proof.Machine

/-! ### The decimal digits (R173) -/

theorem exec_ldB_of_lt {s : State} {x : Reg} (h : s.i.toNat + 3 < 4096) :
    exec (.ldB x) s = .next (s.storeBytes (s.i.toNat + 1) (decimalDigits (s.reg x))).advance :=
  exec_ldB_of_no_fault (if_neg (Nat.not_le.2 h))

/-- The digits of a byte are below 10, and so are kept as bytes. -/
theorem toNat_decimalDigits (u : Byte) :
    (decimalDigits u).map BitVec.toNat = [u.toNat / 100, u.toNat / 10 % 10, u.toNat % 10] := by
  simp only [decimalDigits, List.map_cons, List.map_nil, BitVec.toNat_ofNat, List.cons.injEq, and_true]
  omega

/-- The k-th digit stands at I + 1 + k. -/
theorem byte_storeDigits {s : State} (hs : s.mem.wf = true) (h : s.i.toNat + 3 < 4096) (u : Byte) {k : Nat}
    (hk : k < 3) :
    ((s.storeBytes (s.i.toNat + 1) (decimalDigits u)).byte (s.i.toNat + 1 + k)).toNat =
      [u.toNat / 100, u.toNat / 10 % 10, u.toNat % 10][k] := by
  have hlength : (decimalDigits u).length = 3 := rfl
  have hfits : s.i.toNat + 1 + (decimalDigits u).length ≤ Config.memSize := by
    rw [hlength]; simp only [Config.memSize]; omega
  rw [byte_storeBytes_inside hs hfits (hlength ▸ hk)]
  simp only [← toNat_decimalDigits u, List.getElem_map]

/-! ### The block transfers (R174, R175) -/

theorem exec_ldMemVx_of_lt {s : State} {x : Reg} (h : s.i.toNat + x.val < 4096) :
    exec (.ldMemVx x) s = .next (s.storeBytes s.i.toNat (s.regsUpTo x)).advance :=
  exec_ldMemVx_of_no_fault (if_neg (Nat.not_le.2 h))

theorem exec_ldVxMem_of_lt {s : State} {x : Reg} (h : s.i.toNat + x.val < 4096) :
    exec (.ldVxMem x) s = .next (s.loadRegsUpTo x s.i.toNat).advance :=
  exec_ldVxMem_of_no_fault (if_neg (Nat.not_le.2 h))

/-- After FX55 the byte at I + k is V[k]. -/
theorem byte_storeRegs {s : State} {x : Reg} (hs : s.mem.wf = true) (h : s.i.toNat + x.val < 4096) {k : Reg}
    (hk : k ≤ x) : (s.storeBytes s.i.toNat (s.regsUpTo x)).byte (s.i.toNat + k.val) = s.reg k := by
  have hfits : s.i.toNat + (s.regsUpTo x).length ≤ Config.memSize := by
    rw [length_regsUpTo]; simp only [Config.memSize]; omega
  have hlength : k.val < (s.regsUpTo x).length := by
    rw [length_regsUpTo]; exact Nat.lt_succ_of_le hk
  rw [byte_storeBytes_inside hs hfits hlength, getElem_regsUpTo]

/-- A state that an instruction answers without a fault is in the frame of its footprint. -/
theorem unchanged_of_exec {i : Instr} {s t : State} (hexec : exec i s = .next t) (h : faultOf s i = none) :
    Unchanged (footprintOf s i) s t := by
  obtain ⟨t', hexec', hframe⟩ := exec_unchanged_of_no_fault h
  cases hexec.symm.trans hexec'
  exact hframe

end Sys2Proof.Machine

namespace Sys2Proof
open Machine

/-- Settles O28: `next_setI_advance` with the 16-bit sum. -/
theorem indexAddWraps : Obligations.IndexAddWraps := by
  unfold Obligations.IndexAddWraps
  intro s x
  obtain ⟨t, hexec, hi, hpc, hframe⟩ := next_setI_advance s (indexSum s.i (s.reg x))
  refine ⟨t, hexec, ?_, hpc, hframe⟩
  rw [hi, indexSum, BitVec.toNat_add, BitVec.toNat_setWidth_of_le (by decide)]

/-- Settles O29: the three digits are read back one by one, and the byte at I is below them. -/
theorem decimalDigitsAfterI : Obligations.DecimalDigitsAfterI := by
  unfold Obligations.DecimalDigitsAfterI
  intro s x hs
  constructor
  · intro h
    have hframe := unchanged_of_exec (exec_ldB_of_lt (x := x) h) (if_neg (Nat.not_le.2 h))
    exact ⟨_, exec_ldB_of_lt h, byte_storeDigits hs h (s.reg x) (k := 0) (by decide),
      byte_storeDigits hs h (s.reg x) (k := 1) (by decide), byte_storeDigits hs h (s.reg x) (k := 2) (by decide),
      byte_storeBytes_outside s _ (.inl (Nat.lt_succ_self _)), rfl, hframe⟩
  · intro h
    exact next_of_fault (if_pos h)

/-- Settles O30: `byte_storeRegs` for the bytes, the footprint of FX55 for the rest. -/
theorem blockStore : Obligations.BlockStore := by
  unfold Obligations.BlockStore
  intro s x hs
  constructor
  · intro h
    have hframe := unchanged_of_exec (exec_ldMemVx_of_lt (x := x) h) (if_neg (Nat.not_le.2 h))
    exact ⟨_, exec_ldMemVx_of_lt h, fun k hk => byte_storeRegs hs h hk, rfl, hframe⟩
  · intro h
    exact next_of_fault (if_pos h)

/-- Settles O31: `reg_loadRegsUpTo` for the registers, the footprint of FX65 for the rest. -/
theorem blockLoad : Obligations.BlockLoad := by
  unfold Obligations.BlockLoad
  intro s x
  constructor
  · intro h
    have hframe := unchanged_of_exec (exec_ldVxMem_of_lt (x := x) h) (if_neg (Nat.not_le.2 h))
    refine ⟨_, exec_ldVxMem_of_lt h, fun k hk => ?_, by simp, hframe⟩
    rw [State.reg_advance, reg_loadRegsUpTo, if_pos hk]
  · intro h
    exact next_of_fault (if_pos h)

/-- Settles O32: FX65 reads the addresses that FX55 wrote, since neither changes I. -/
theorem blockLoadRestoresBlockStore : Obligations.BlockLoadRestoresBlockStore := by
  unfold Obligations.BlockLoadRestoresBlockStore
  intro s t u x hs h hstore hmem hi
  cases (exec_ldMemVx_of_lt h).symm.trans hstore
  have hui : u.i = s.i := hi
  refine ⟨_, exec_ldVxMem_of_lt (by rw [hui]; exact h), fun k hk => ?_, fun k hk => ?_⟩
  · rw [State.reg_advance, reg_loadRegsUpTo, if_pos hk, hui, State.byte, hmem]
    exact byte_storeRegs hs h hk
  · rw [State.reg_advance, reg_loadRegsUpTo, if_neg (not_le.2 hk)]

/-- Settles O33: the two bytes fetched at I are V0 and V1 as stored. -/
theorem storeIsSeenByNextFetch : Obligations.StoreIsSeenByNextFetch := by
  unfold Obligations.StoreIsSeenByNextFetch
  intro s x hs _ hi hx h
  have h0 := byte_storeRegs hs h (Fin.zero_le x)
  have h1 := byte_storeRegs hs h hx
  have hpc : s.npc = s.i := hi.symm
  refine ⟨_, exec_ldMemVx_of_lt h, ?_⟩
  rw [State.fetchWord, State.advance_pc, State.npc_storeBytes, hpc, State.byte_advance, State.byte_advance]
  exact congrArg₂ wordOfBytes h0 h1

end Sys2Proof
end

section
/-! PROOFS. Keys and timers (44_timers_keys.md): the key skips (R210, R211, R213), the key wait (R215, R221) and the
timer tick (R223). -/

namespace Sys2Proof.Machine

/-- Bit V[x] of the keyboard, as a number; a key number from 16 up is not held (R213). -/
theorem keyHeld_iff (s : State) (u : Byte) :
    s.keyHeld u = true ↔ u.toNat < 16 ∧ s.keyboard.toNat / 2 ^ u.toNat % 2 = 1 := by
  simp only [State.keyHeld, BitVec.getLsbD, Nat.testBit_eq_decide_div_mod_eq, Bool.and_eq_true, decide_eq_true_eq]

theorem toNat_keyByte (k : Reg) : (keyByte k).toNat = k.val := by
  have hfits : k.val < 2 ^ 8 := by omega
  rw [keyByte, BitVec.toNat_ofNat, Nat.mod_eq_of_lt hfits]

theorem exists_lowestSetBit {keys : Word} (h : keys ≠ 0) : ∃ k, lowestSetBit keys = some k :=
  Option.ne_none_iff_exists'.1 fun hnone => h (lowestSetBit_eq_none.1 hnone)

/-- The end of a key wait writes V[r] and the wait state alone. -/
theorem unchanged_keyWait (s : State) (r k : Reg) :
    Unchanged { regs := [r], awaitingKey := true } s { s.setReg r (keyByte k) with awaitingKey := none } :=
  ((Unchanged.refl _ s).setReg List.mem_cons_self _).setAwaitingKey rfl none

/-- The tick of a waiting machine is the key-wait step, on the state after the sample. -/
theorem step_of_waiting_tick {s : State} {keys : Word} {rnd : Byte} {r : Reg} (hrun : s.halt = none)
    (hwait : s.awaitingKey = some r) (hev : s.nextEvent = .tick keys rnd) :
    step s = .next ((s.takeEvent.sample keys rnd).keyWaitStep r) := by
  rw [step_of_tick hev, tick_of_waiting (by simpa using hrun) (by simpa using hwait)]

/-- A decrement clamped at 0 is the natural subtraction. -/
theorem toNat_countDown (u : Byte) : (countDown u).toNat = u.toNat - 1 := by
  unfold countDown
  split
  · next h => rw [h]; rfl
  · next h =>
    have hpos : u.toNat ≠ 0 := fun e => h (BitVec.eq_of_toNat_eq e)
    exact BitVec.toNat_sub_of_le (BitVec.le_def.2 (Nat.one_le_iff_ne_zero.2 hpos))

/-- A timer tick writes the timers alone. -/
theorem unchanged_timerTick {s : State} (h : s.halt = none) :
    Unchanged { dt := true, st := true } s s.timerTick := by
  have hrefl : Unchanged { dt := true, st := true } s s := Unchanged.refl _ s
  rw [timerTick_of_not_halted h]
  exact (hrefl.setDt rfl (countDown s.dt)).setSt rfl (countDown s.st)

end Sys2Proof.Machine

namespace Sys2Proof
open Machine

/-- Settles O38: both are skips on `keyHeld`, the second on its negation. -/
theorem keySkips : Obligations.KeySkips := by
  unfold Obligations.KeySkips
  intro s x
  constructor
  · obtain ⟨t, hexec, hpc, hframe⟩ := next_skipIf s (keyHeld_iff s (s.reg x))
    exact ⟨t, hexec, hframe, hpc⟩
  · have hnot : (!s.keyHeld (s.reg x)) = true ↔
        ¬ ((s.reg x).toNat < 16 ∧ s.keyboard.toNat / 2 ^ (s.reg x).toNat % 2 = 1) := by
      rw [← keyHeld_iff, Bool.not_eq_true', Bool.not_eq_true]
    obtain ⟨t, hexec, hpc, hframe⟩ := next_skipIf s hnot
    exact ⟨t, hexec, hframe, by rw [hpc, ite_not]⟩

/-- Settles O40: the instruction is one write to the wait state and the advance. -/
theorem keyWaitBegins : Obligations.KeyWaitBegins := by
  unfold Obligations.KeyWaitBegins
  intro s x
  have hframe : Unchanged { awaitingKey := true } s { s with awaitingKey := some x }.advance :=
    ((Unchanged.refl _ s).setAwaitingKey rfl _).advance
  exact ⟨_, rfl, rfl, rfl, hframe⟩

/-- Settles O41: the lowest set bit of the sample is the key found (`lowestSetBit_eq_some`), and there is one unless the
sample is 0. -/
theorem keyWaitResolvesToLowestKey : Obligations.KeyWaitResolvesToLowestKey := by
  unfold Obligations.KeyWaitResolvesToLowestKey
  intro s keys rnd r hrun hwait hev
  have hstep := step_of_waiting_tick hrun hwait hev
  constructor
  · intro hkeys
    obtain ⟨k, hk⟩ := exists_lowestSetBit hkeys
    obtain ⟨hheld, hlowest⟩ := lowestSetBit_eq_some.1 hk
    have hresolved : (s.takeEvent.sample keys rnd).keyWaitStep r =
        { (s.takeEvent.sample keys rnd).setReg r (keyByte k) with awaitingKey := none } := keyWaitStep_of_some hk
    have hreg : ((s.takeEvent.sample keys rnd).setReg r (keyByte k)).reg r = keyByte k := reg_setReg_same _ r _
    refine ⟨_, k, hstep.trans (congrArg _ hresolved), (congrArg BitVec.toNat hreg).trans (toNat_keyByte k), hheld,
      fun j hj => hlowest ⟨j, by omega⟩ hj, rfl, s.takeEvent_pc, unchanged_keyWait _ r k⟩
  · intro hkeys
    have hnone : lowestSetBit (s.takeEvent.sample keys rnd).keyboard = none := lowestSetBit_eq_none.2 hkeys
    rw [hstep, keyWaitStep_of_none hnone]

/-- Settles O42: both timers count down, and the event taken changes neither. -/
theorem timerTickCountsDown : Obligations.TimerTickCountsDown := by
  unfold Obligations.TimerTickCountsDown
  intro s hrun hev
  have hrun' : s.takeEvent.halt = none := by rw [State.takeEvent_halt, hrun]
  have hticked := timerTick_of_not_halted hrun'
  refine ⟨s.takeEvent.timerTick, by simp only [step, hev, hostEvent], ?_, ?_, ?_, unchanged_timerTick hrun'⟩
  · rw [hticked, toNat_countDown, State.takeEvent_dt]
  · rw [hticked, toNat_countDown, State.takeEvent_st]
  · rw [hticked, State.takeEvent_pc]

end Sys2Proof
end

section
/-! PROOFS. The sprite-draw unit (43_sprite_display.md R192 to R195): the loop over rows and columns as one XOR with
the wrapped sprite. -/

namespace Sys2Proof.Machine

/-! ### Drawing a set of cells -/

/-- The canvas cv' is cv with the cells of `on` XORed, and with a collision if there was one or if `on` meets a set
cell. -/
structure Draws (on : Fin 64 → Fin 32 → Bool) (cv cv' : Canvas) : Prop where
  cells : ∀ c r, cellOf cv'.cells c r = (cellOf cv.cells c r ^^ on c r)
  hit : cv'.hit = true ↔ cv.hit = true ∨ ∃ c r, on c r = true ∧ cellOf cv.cells c r = true

theorem Draws.congr {on on' : Fin 64 → Fin 32 → Bool} {cv cv' : Canvas} (h : Draws on cv cv')
    (heq : ∀ c r, on c r = on' c r) : Draws on' cv cv' :=
  funext₂ heq ▸ h

theorem Draws.none (cv : Canvas) : Draws (fun _ _ => false) cv cv where
  cells c r := by rw [Bool.xor_false]
  hit := by simp

/-- Two disjoint sets of cells, drawn one after the other, are their union: the second meets no cell that the first has
changed. -/
theorem Draws.trans {on₁ on₂ : Fin 64 → Fin 32 → Bool} {cv cv₁ cv₂ : Canvas} (h₁ : Draws on₁ cv cv₁)
    (h₂ : Draws on₂ cv₁ cv₂) (hdisjoint : ∀ c r, on₂ c r = true → on₁ c r = false) :
    Draws (fun c r => on₁ c r || on₂ c r) cv cv₂ where
  cells c r := by
    rw [h₂.cells, h₁.cells]
    cases h : on₂ c r with
    | false => simp
    | true => simp [hdisjoint c r h]
  hit := by
    have hsame (c r) (h : on₂ c r = true) : cellOf cv₁.cells c r = cellOf cv.cells c r := by
      rw [h₁.cells, hdisjoint c r h, Bool.xor_false]
    rw [h₂.hit, h₁.hit, or_assoc]
    refine or_congr_right ⟨?_, ?_⟩
    · rintro (⟨c, r, hon, hcell⟩ | ⟨c, r, hon, hcell⟩)
      · exact ⟨c, r, by simp [hon], hcell⟩
      · exact ⟨c, r, by simp [hon], hsame c r hon ▸ hcell⟩
    · rintro ⟨c, r, hon, hcell⟩
      obtain hon | hon := Bool.or_eq_true_iff.1 hon
      · exact .inl ⟨c, r, hon, hcell⟩
      · exact .inr ⟨c, r, hon, (hsame c r hon).trans hcell⟩

/-! ### Offsets inside the sprite (R193) -/

/-- The column offset of a cell from the left edge of a sprite at cx, wrapped. -/
def columnOffset (cx : Byte) (c : Fin 64) : Nat := (c.val + 64 - cx.toNat % 64) % 64

/-- The row offset of a cell from the top edge of a sprite at cy, wrapped. -/
def rowOffset (cy : Byte) (r : Fin 32) : Nat := (r.val + 32 - cy.toNat % 32) % 32

/-- Within the width of the display each cell lies at one offset. -/
theorem eq_wrapColumn_iff {cx : Byte} {col : Nat} (hcol : col < 64) (c : Fin 64) :
    c = wrapColumn cx col ↔ columnOffset cx c = col := by
  rw [Fin.ext_iff, wrapColumn, Fin.val_ofNat, columnOffset]
  omega

theorem eq_wrapRow_iff {cy : Byte} {row : Nat} (hrow : row < 32) (r : Fin 32) :
    r = wrapRow cy row ↔ rowOffset cy r = row := by
  rw [Fin.ext_iff, wrapRow, Fin.val_ofNat, rowOffset]
  omega

/-! ### One sprite row (R192) -/

/-- The cell under one sprite bit. -/
def bitOn (bit : Bool) (c : Fin 64) (r : Fin 32) (c' : Fin 64) (r' : Fin 32) : Bool :=
  bit && decide (c' = c ∧ r' = r)

theorem draws_drawBit (bit : Bool) (c : Fin 64) (r : Fin 32) (cv : Canvas) :
    Draws (bitOn bit c r) cv (drawBit bit c r cv) where
  cells c' r' := (drawBit_spec bit c c' r r' cv).1
  hit := by
    rw [(drawBit_spec bit c c r r cv).2]
    simp [bitOn]

/-- The cells of row r under the bits of a sprite byte at the listed column offsets. -/
def columnsOn (cx : Byte) (r : Fin 32) (b : Byte) (cols : List Nat) (c' : Fin 64) (r' : Fin 32) : Bool :=
  decide (columnOffset cx c' ∈ cols ∧ r' = r) && spriteBit b (columnOffset cx c')

theorem columnsOn_cons (cx : Byte) (r : Fin 32) (b : Byte) {col : Nat} (hcol : col < 64) (cols : List Nat)
    (c' : Fin 64) (r' : Fin 32) :
    columnsOn cx r b (col :: cols) c' r' =
      (bitOn (spriteBit b col) (wrapColumn cx col) r c' r' || columnsOn cx r b cols c' r') := by
  simp only [columnsOn, bitOn, eq_wrapColumn_iff hcol, List.mem_cons]
  by_cases h : columnOffset cx c' = col
  · subst h
    by_cases hr : r' = r <;> simp [hr]
  · simp [h]

/-- The fold over distinct column offsets draws the cells under their bits. -/
theorem draws_columns (cx : Byte) (r : Fin 32) (b : Byte) {cols : List Nat} (hnodup : cols.Nodup)
    (hlt : ∀ col ∈ cols, col < 64) (cv : Canvas) :
    Draws (columnsOn cx r b cols) cv
      (cols.foldl (fun cv col => drawBit (spriteBit b col) (wrapColumn cx col) r cv) cv) := by
  induction cols generalizing cv with
  | nil => exact (Draws.none cv).congr fun _ _ => by simp [columnsOn]
  | cons col cols ih =>
    obtain ⟨hcol, hnodup⟩ := List.nodup_cons.1 hnodup
    obtain ⟨hcol64, hlt⟩ := List.forall_mem_cons.1 hlt
    refine ((draws_drawBit _ _ r cv).trans (ih hnodup hlt _) fun c' r' hon => ?_).congr fun c' r' =>
      (columnsOn_cons cx r b hcol64 cols c' r').symm
    have hmem : columnOffset cx c' ∈ cols := by
      simp only [columnsOn, Bool.and_eq_true, decide_eq_true_eq] at hon
      exact hon.1.1
    have hne : columnOffset cx c' ≠ col := fun e => hcol (e ▸ hmem)
    simp [bitOn, eq_wrapColumn_iff hcol64, hne]

theorem draws_drawRow (cx : Byte) (r : Fin 32) (b : Byte) (cv : Canvas) :
    Draws (columnsOn cx r b (List.range 8)) cv (drawRow cx r b cv) := by
  refine draws_columns cx r b List.nodup_range (fun col hcol => ?_) cv
  have hcol8 := List.mem_range.1 hcol
  omega

/-! ### The whole sprite -/

/-- The cells under the row offsets from lo to hi (not included) of a sprite whose row bytes are given by offset. -/
def spriteCells (cx cy : Byte) (sprite : Nat → Byte) (lo hi : Nat) (c : Fin 64) (r : Fin 32) : Bool :=
  decide (columnOffset cx c < 8 ∧ lo ≤ rowOffset cy r ∧ rowOffset cy r < hi) &&
    spriteBit (sprite (rowOffset cy r)) (columnOffset cx c)

theorem spriteCells_succ (cx cy : Byte) (sprite : Nat → Byte) {lo hi : Nat} (hlo : lo < 32) (hlt : lo < hi)
    (c : Fin 64) (r : Fin 32) :
    spriteCells cx cy sprite lo hi c r =
      (columnsOn cx (wrapRow cy lo) (sprite lo) (List.range 8) c r || spriteCells cx cy sprite (lo + 1) hi c r) := by
  simp only [spriteCells, columnsOn, eq_wrapRow_iff hlo, List.mem_range]
  by_cases h : rowOffset cy r = lo
  · simp [h, hlt]
  · have hle : lo ≤ rowOffset cy r ↔ lo + 1 ≤ rowOffset cy r := by omega
    simp [h, hle]

/-- The rows of a sprite, none of which wraps onto another, are drawn one by one. -/
theorem draws_drawRows (cx cy : Byte) (sprite : Nat → Byte) {bytes : List Byte} {row : Nat}
    (hrows : row + bytes.length ≤ 32) (hbytes : ∀ k, (h : k < bytes.length) → bytes[k] = sprite (row + k))
    (cv : Canvas) :
    Draws (spriteCells cx cy sprite row (row + bytes.length)) cv (drawRows cx cy row bytes cv) := by
  induction bytes generalizing row cv with
  | nil =>
    refine (Draws.none cv).congr fun c r => ?_
    have hempty : ¬ (row ≤ rowOffset cy r ∧ rowOffset cy r < row) := by omega
    simp [spriteCells, hempty]
  | cons b bytes ih =>
    rw [List.length_cons] at hrows ⊢
    have hfirst : b = sprite row := hbytes 0 (Nat.succ_pos _)
    have hrest : ∀ k, (h : k < bytes.length) → bytes[k] = sprite (row + 1 + k) := fun k h => by
      rw [Nat.add_assoc, Nat.add_comm 1 k]
      exact hbytes (k + 1) (Nat.succ_lt_succ h)
    have hnext := ih (row := row + 1) (by omega) hrest (drawRow cx (wrapRow cy row) b cv)
    rw [show row + 1 + bytes.length = row + (bytes.length + 1) by omega] at hnext
    refine ((draws_drawRow cx _ b cv).trans hnext fun c r hon => ?_).congr fun c r => ?_
    · have hbelow : row + 1 ≤ rowOffset cy r := by
        simp only [spriteCells, Bool.and_eq_true, decide_eq_true_eq] at hon
        exact hon.1.2.1
      have hne : rowOffset cy r ≠ row := by omega
      simp [columnsOn, eq_wrapRow_iff (show row < 32 by omega), hne]
    · rw [hfirst, spriteCells_succ cx cy sprite (lo := row) (by omega) (by omega)]

theorem spriteCells_eq_spriteOn (s : State) (cx cy : Byte) (n : Nat) (c : Fin 64) (r : Fin 32) :
    spriteCells cx cy (fun k => s.byte (s.i.toNat + k)) 0 n c r = s.spriteOn cx cy n c r := by
  simp only [spriteCells, State.spriteOn, spriteBit, columnOffset, rowOffset, Nat.zero_le, true_and]

/-- DXYN draws the wrapped sprite on the display, from no collision. -/
theorem draws_drawn (s : State) (x y : Reg) (n : Nibble) :
    Draws (s.spriteOn (s.reg x) (s.reg y) n.toNat) ⟨s.display, false⟩ (s.drawn x y n) := by
  have hlength : (s.bytes s.i.toNat n.toNat).length = n.toNat := length_bytes s _ _
  have hdraws := draws_drawRows (s.reg x) (s.reg y) (fun k => s.byte (s.i.toNat + k)) (row := 0)
    (by rw [hlength]; omega) (fun k h => by rw [getElem_bytes, Nat.zero_add]) ⟨s.display, false⟩
  rw [hlength, Nat.zero_add] at hdraws
  exact hdraws.congr (spriteCells_eq_spriteOn s _ _ _)

/-! ### The state after a draw -/

theorem faultOf_drw_eq_none {s : State} {n : Nibble} (x y : Reg) (h : n.toNat = 0 ∨ s.i.toNat + n.toNat ≤ 4096) :
    faultOf s (.drw x y n) = none :=
  if_neg (by omega)

theorem reg_vf_withCanvas (s : State) (cv : Canvas) : (s.withCanvas cv).reg vf = flagByte cv.hit :=
  reg_setReg_same _ vf _

theorem flagByte_cases (b : Bool) : flagByte b = 1 ∨ flagByte b = 0 := by
  cases b
  · exact .inr rfl
  · exact .inl rfl

theorem flagByte_eq_one {b : Bool} : flagByte b = 1 ↔ b = true := by
  revert b
  decide

/-- The sprite depends on I and memory alone. -/
theorem spriteOn_congr {s t : State} (hi : t.i = s.i) (hbyte : ∀ a, t.byte a = s.byte a) (cx cy : Byte) (n : Nat)
    (c : Fin 64) (r : Fin 32) : t.spriteOn cx cy n c r = s.spriteOn cx cy n c r := by
  simp only [State.spriteOn, hi, hbyte]

end Sys2Proof.Machine

namespace Sys2Proof
open Machine

/-- Settles O35: the loop is one XOR with the wrapped sprite (`draws_drawn`), and its collision bit is what VF
gets. -/
theorem drawXorsTheWrappedSprite : Obligations.DrawXorsTheWrappedSprite := by
  unfold Obligations.DrawXorsTheWrappedSprite
  intro s x y n
  constructor
  · intro h
    have hfault := faultOf_drw_eq_none x y h
    have hexec := exec_drw_of_no_fault hfault
    have hdraws := draws_drawn s x y n
    refine ⟨_, hexec, hdraws.cells, ?_, ?_, rfl, unchanged_of_exec hexec hfault⟩
    · rw [State.reg_advance, reg_vf_withCanvas]
      exact flagByte_cases _
    · rw [State.reg_advance, reg_vf_withCanvas, flagByte_eq_one, hdraws.hit]
      simp only [Bool.false_eq_true, false_or, State.cell, and_comm]
  · intro hn h
    exact next_of_fault (if_pos ⟨hn, by omega⟩)

/-- Settles O36: a set cell that the sprite meets is a cell that goes from 1 to 0. -/
theorem collisionIsACellTurnedOff : Obligations.CollisionIsACellTurnedOff := by
  unfold Obligations.CollisionIsACellTurnedOff
  intro s x y n h
  obtain ⟨t, hexec, hcell, hflag, hhit, -, -⟩ := (drawXorsTheWrappedSprite s x y n).1 h
  have hoff : t.reg vf = 1 ↔ ∃ c r, s.cell c r = true ∧ t.cell c r = false := by
    rw [hhit]
    refine exists₂_congr fun c r => and_congr_right fun hset => ?_
    rw [hcell, hset, Bool.true_xor, Bool.not_eq_false']
  exact ⟨t, hexec, hoff.2, fun hnone => hflag.resolve_left fun hone => hnone (hoff.1 hone)⟩

/-- Settles O37: the second draw XORs the same sprite, since the first changes neither I, memory nor the coordinates;
it meets a set cell exactly where the first draw met a clear one. -/
theorem drawingTwiceRestoresTheDisplay : Obligations.DrawingTwiceRestoresTheDisplay := by
  unfold Obligations.DrawingTwiceRestoresTheDisplay
  intro s t x y n hx hy h hexec
  obtain ⟨t', hexec', hcell, -, -, -, hframe⟩ := (drawXorsTheWrappedSprite s x y n).1 h
  cases hexec.symm.trans hexec'
  have hi : t.i = s.i := hframe.i rfl
  have hkept {q : Reg} (hq : q ≠ vf) : t.reg q = s.reg q := hframe.regs q (by simpa using hq)
  have hsprite := spriteOn_congr hi fun a => hframe.mem a List.not_mem_nil
  obtain ⟨u, hagain, hcell', -, hhit', -, -⟩ := (drawXorsTheWrappedSprite t x y n).1 (hi ▸ h)
  simp only [hkept hx, hkept hy, hsprite] at hcell' hhit'
  refine ⟨u, hagain, fun c r => ?_, ?_⟩
  · rw [hcell', hcell, Bool.xor_assoc, Bool.xor_self, Bool.xor_false]
  · rw [hhit']
    refine exists₂_congr fun c r => ?_
    rw [hcell]
    cases s.cell c r <;> simp

end Sys2Proof
end
